-- ==== Sys2Proof/Word.lean ====
section
/-! DEFINITION. The block's word and byte types. -/

namespace Sys2Proof

/-- One byte of a bit buffer, and one text character (00_scope.md R9). -/
abbrev Byte := BitVec 8

/-- One word of the command port (30_encoding.md R70); also the width of ELAPSED, `bit_index`, PTR and the
encoded length (00_scope.md R9). -/
abbrev Word := BitVec 32

end Sys2Proof
end

