-- ==== Sys2Proof/Syntax.lean ====
section
/-! DEFINITION. The commands of the block, one constructor per row of spec/opcode_table.json. -/

namespace Sys2Proof

/-- The command set (30_encoding.md R72). -/
inductive Instr where
  /-- NOP, OP 0x0 (41_playback.md R141) -/
  | nop
  /-- SUBMIT (`r` = 0) and SUBMIT.R (`r` = 1), OP 0x1, with the text of its data beats (41_playback.md R142) -/
  | submit (r : Bool) (text : List Byte)
  /-- TICK, OP 0x2, with T (41_playback.md R146) -/
  | tick (t : BitVec 28)
  /-- STOP, OP 0x3 (41_playback.md R156) -/
  | stop
  /-- INTERRUPT, OP 0x4 (41_playback.md R157) -/
  | interrupt
  /-- SETDOT, OP 0x5, with D (41_playback.md R160) -/
  | setdot (d : BitVec 16)
  /-- a reserved word with OP 0x6 or 0x7; `op` is bit 28 (41_playback.md R165, log 8) -/
  | reservedLow (op : BitVec 1)
  /-- a reserved word with OP 0x8..0xF; `op` is bits 30:28 (41_playback.md R165, log 8) -/
  | reservedHigh (op : BitVec 3)
deriving DecidableEq, Repr

end Sys2Proof
end

