-- ==== Sys2Proof/WellFormed.lean ====
section
/-! DEFINITION. Which terms of `Instr` are commands of the block. -/

namespace Sys2Proof

/-- A command is well formed when every operand fits its field.
T, D and the characters have their field's width as their type (30_encoding.md R74), so one check is left: a SUBMIT's
text has at most 65535 characters (30_encoding.md R73). -/
def Instr.wf : Instr → Bool
  | .nop => true
  | .submit _ text => decide (text.length ≤ 65535)
  | .tick _ => true
  | .stop => true
  | .interrupt => true
  | .setdot _ => true
  | .reservedLow _ => true
  | .reservedHigh _ => true

end Sys2Proof
end

