-- ==== Sys2Proof/Decode.lean ====
section
/-! DEFINITION. Decoding of command-port words (30_encoding.md R70 to R77), and the encoder. -/

namespace Sys2Proof

/-- Why a sequence of port words holds no complete command. -/
inductive DecodeError where
  /-- no word at all -/
  | noWord
  /-- a SUBMIT with `missing` data beats still to come -/
  | beatsMissing (missing : Nat)
deriving DecidableEq, Repr

/-! ### Fields (30_encoding.md R71, R74) -/

/-- OP = w[31:28] (R71). -/
def opField (w : Word) : BitVec 4 := w.extractLsb' 28 4

/-- R = w[27] (R74). -/
def repeatField (w : Word) : Bool := w.getLsbD 27

/-- N = w[15:0] (R74), as a number of beats. -/
def lengthField (w : Word) : Nat := (w.extractLsb' 0 16).toNat

/-- T = w[27:0] (R74). -/
def timeField (w : Word) : BitVec 28 := w.extractLsb' 0 28

/-- D = w[15:0] (R74). -/
def dotField (w : Word) : BitVec 16 := w.extractLsb' 0 16

/-- char_j = beat_j[7:0]; bits 31:8 of a beat are ignored (R73, R74). -/
def beatChar (w : Word) : Byte := w.extractLsb' 0 8

/-- The number of words of the command whose first word is `w`, that word included (R77). -/
def commandWords (w : Word) : Nat :=
  if opField w = 0x1#4 then 1 + lengthField w else 1

/-! ### The opcode map (30_encoding.md R72) -/

/-- One row of the opcode map: a word belongs to the row when it agrees with `value` on the bits of `mask`. -/
structure OpcodeRow where
  mnemonic : String
  mask : Word
  value : Word
deriving DecidableEq, Repr

/-- Does the word belong to the row? -/
def OpcodeRow.covers (row : OpcodeRow) (w : Word) : Bool := w &&& row.mask == row.value

/-- spec/opcode_table.json's match and mask columns (R72). -/
def opcodeRows : List OpcodeRow :=
  [⟨"NOP", 0xF0000000#32, 0x00000000#32⟩, ⟨"SUBMIT", 0xF0000000#32, 0x10000000#32⟩,
   ⟨"TICK", 0xF0000000#32, 0x20000000#32⟩, ⟨"STOP", 0xF0000000#32, 0x30000000#32⟩,
   ⟨"INTERRUPT", 0xF0000000#32, 0x40000000#32⟩, ⟨"SETDOT", 0xF0000000#32, 0x50000000#32⟩,
   ⟨"RESERVED__OP_0x6__0x7", 0xE0000000#32, 0x60000000#32⟩,
   ⟨"RESERVED__OP_0x8..0xF", 0x80000000#32, 0x80000000#32⟩]

/-! ### The decoder -/

/-- The command of a first word, with the text its data beats carry (R72): OP alone selects it, and reserved bits are
ignored (R75). Only SUBMIT has a text. -/
def commandOf (w : Word) (text : List Byte) : Instr :=
  if opField w = 0x0#4 then .nop
  else if opField w = 0x1#4 then .submit (repeatField w) text
  else if opField w = 0x2#4 then .tick (timeField w)
  else if opField w = 0x3#4 then .stop
  else if opField w = 0x4#4 then .interrupt
  else if opField w = 0x5#4 then .setdot (dotField w)
  else if opField w = 0x6#4 ∨ opField w = 0x7#4 then .reservedLow (w.extractLsb' 28 1)
  else .reservedHigh (w.extractLsb' 28 3)

/-- The number of data beats of the command whose first word is `w` (R73, R77). -/
def beatCount (w : Word) : Nat := commandWords w - 1

/-- Decode the first command of a sequence of port words: the command and the words after it.
Its length is known from its first word (R77); the words up to that length are data beats, whatever their bits (R73). -/
def decode : List Word → Except DecodeError (Instr × List Word)
  | [] => .error .noWord
  | w :: ws =>
    if ws.length < beatCount w then .error (.beatsMissing (beatCount w - ws.length))
    else .ok (commandOf w ((ws.take (beatCount w)).map beatChar), ws.drop (beatCount w))

/-! ### The encoder (30_encoding.md R71, R72, R78, R82) -/

/-- The first word of a command, its reserved bits 0 (R75, R82). -/
def commandWord : Instr → Word
  | .nop => 0x00000000#32
  | .submit r text => 0x1#4 ++ BitVec.ofBool r ++ 0#11 ++ BitVec.ofNat 16 text.length
  | .tick t => 0x2#4 ++ t
  | .stop => 0x30000000#32
  | .interrupt => 0x40000000#32
  | .setdot d => 0x5#4 ++ 0#12 ++ d
  | .reservedLow op => 0x3#3 ++ op ++ 0#28
  | .reservedHigh op => 0x1#1 ++ op ++ 0#28

/-- The data beats of a command: one word per text character, zero-extended (R73, R82). -/
def dataBeats : Instr → List Word
  | .nop => []
  | .submit _ text => text.map (·.setWidth 32)
  | .tick _ => []
  | .stop => []
  | .interrupt => []
  | .setdot _ => []
  | .reservedLow _ => []
  | .reservedHigh _ => []

/-- The port words of a command. -/
def encode (i : Instr) : List Word := commandWord i :: dataBeats i

/-! ### The opcode table's numbering of an instruction's bits -/

/-- The `k`-th 32-bit word of an instruction given as one number, the first word least significant. -/
def tableWord (nbits w k : Nat) : Word := BitVec.ofNat 32 ((w % 2 ^ nbits) >>> (32 * k))

/-- The port words of an instruction given as `nbits` bits of the number `w`: as many words as its first word asks
for, every bit above `nbits` zero. -/
def tableWords (nbits w : Nat) : List Word :=
  (List.range (commandWords (tableWord nbits w 0))).map (tableWord nbits w)

/-- The instruction the decoder reads from those words. -/
def decodeTableWord (nbits w : Nat) : Option Instr :=
  match decode (tableWords nbits w) with
  | .ok (i, _) => some i
  | .error _ => none

end Sys2Proof
end

