-- ==== Sys2Proof/Config.lean ====
section
/-! DEFINITION. What one instance of the block fixes (00_scope.md R8), and the model's free value. -/

namespace Sys2Proof

/-- One element of a Code Table string (00_scope.md R14). -/
inductive Symbol where
  | dot
  | dash
deriving DecidableEq, Repr

/-- SWAP_READ_POLICY: which index the emitting read of a boundary tick uses (41_playback.md R153). -/
inductive SwapReadPolicy where
  /-- the index computed before the boundary -/
  | quirk
  /-- index 0 after every boundary -/
  | fixed
deriving DecidableEq, Repr

/-- GAP_CHAR_POLICY: the treatment of the characters 0x3A..0x40 (30_encoding.md R81). -/
inductive GapCharPolicy where
  /-- they are invalid characters -/
  | invalid
  /-- they are symbols with an empty string -/
  | emptyEntry
deriving DecidableEq, Repr

/-- The parameters of 00_scope.md R8, fixed for the life of a block instance.
BUF_INIT is not among them: it is an argument of reset.
DESIGN CHOICE (log 1, safe): an instance carries its parameters in its state, so that a statement over all states
holds for every value of them. -/
structure Params where
  /-- CAP: bytes per bit buffer, header included -/
  cap : Nat
  /-- DOT_RESET: reset value of DOT, in ms -/
  dotReset : BitVec 16
  /-- SWAP_READ_POLICY -/
  swapRead : SwapReadPolicy
  /-- GAP_CHAR_POLICY -/
  gapChar : GapCharPolicy
  /-- CODE_TABLE: the 36 strings, '0'..'9' first, then 'A'..'Z' -/
  codeTable : List (List Symbol)
deriving DecidableEq, Repr

/-- FREE VALUE (log 6, safe): what ELAPSED / DOT gives when DOT is 0.
The spec excludes that state (10_state.md R25), so no run reaches it, and nothing is known of this function. -/
opaque Config.indexWithZeroDot : Word → Word

end Sys2Proof
end

