-- ==== Sys2Proof/Machine/CodeTable.lean ====
section
/-! DEFINITION. The parameters' derived quantities, legal values and defaults (00_scope.md R8), and the Code Table
(40_encoder.md R100, R101). -/

namespace Sys2Proof

open Sys2Proof.Symbol

/-- The strings of '0'..'9' in the default CODE_TABLE (40_encoder.md R100). -/
def morseDigits : List (List Symbol) :=
  [[dash, dash, dash, dash, dash], [dot, dash, dash, dash, dash], [dot, dot, dash, dash, dash],
   [dot, dot, dot, dash, dash], [dot, dot, dot, dot, dash], [dot, dot, dot, dot, dot],
   [dash, dot, dot, dot, dot], [dash, dash, dot, dot, dot], [dash, dash, dash, dot, dot],
   [dash, dash, dash, dash, dot]]

/-- The strings of 'A'..'M' in the default CODE_TABLE (40_encoder.md R100). -/
def morseAtoM : List (List Symbol) :=
  [[dot, dash], [dash, dot, dot, dot], [dash, dot, dash, dot], [dash, dot, dot], [dot],
   [dot, dot, dash, dot], [dash, dash, dot], [dot, dot, dot, dot], [dot, dot], [dot, dash, dash, dash],
   [dash, dot, dash], [dot, dash, dot, dot], [dash, dash]]

/-- The strings of 'N'..'Z' in the default CODE_TABLE (40_encoder.md R100). -/
def morseNtoZ : List (List Symbol) :=
  [[dash, dot], [dash, dash, dash], [dot, dash, dash, dot], [dash, dash, dot, dash], [dot, dash, dot],
   [dot, dot, dot], [dash], [dot, dot, dash], [dot, dot, dot, dash], [dot, dash, dash],
   [dash, dot, dot, dash], [dash, dot, dash, dash], [dash, dash, dot, dot]]

/-- The default CODE_TABLE, International Morse Code (40_encoder.md R100; log 7). -/
def morseTable : List (List Symbol) := morseDigits ++ morseAtoM ++ morseNtoZ

/-- BITCAP: content bits per buffer (00_scope.md R8, 20_memory.md R51). -/
def Params.bitcap (p : Params) : Nat := 8 * (p.cap - 4)

/-- A legal CODE_TABLE: 36 non-empty strings (00_scope.md R8, 40_encoder.md R101). -/
def Params.tableLegal (p : Params) : Bool :=
  p.codeTable.length == 36 && p.codeTable.all fun s => !s.isEmpty

/-- The parameters have legal values (00_scope.md R8). -/
def Params.legal (p : Params) : Bool :=
  decide (5 ≤ p.cap) && decide (p.bitcap ≤ 2 ^ 32 - 1) && decide (p.dotReset ≠ 0#16) && p.tableLegal

/-- The default parameters (00_scope.md R8; log 7). -/
def Params.default : Params :=
  { cap := 1024, dotReset := 60#16, swapRead := .quirk, gapChar := .invalid, codeTable := morseTable }

/-- LUT[idx] (30_encoding.md R80, 40_encoder.md R101): 43 entries; 0..9 the digits, 10..16 empty, 17..42 the letters. -/
def Params.lut (p : Params) (idx : Nat) : List Symbol :=
  if idx < 10 then p.codeTable.getD idx []
  else if idx < 17 then []
  else if idx < 43 then p.codeTable.getD (idx - 7) []
  else []

end Sys2Proof
end

