-- ==== Sys2Proof/Machine/State.lean ====
section
/-! DEFINITION. The state of the block (10_state.md), its reset value, and the reasons a step can stop. -/

namespace Sys2Proof.Machine

/-- The bytes of one bit buffer (10_state.md R22): address and byte pairs, addresses strictly rising, no pair equal to
what an unlisted address reads as. -/
abbrev Memory := List Host.Cell

/-- An error, reported as a diagnostic (60_exceptions.md R180). -/
inductive Error where
  /-- code 1: SUBMIT met a byte whose class is INVALID (60_exceptions.md R181) -/
  | invalidCharacter
  /-- code 2: SUBMIT met a run that would pass BITCAP (60_exceptions.md R182) -/
  | encodingOverflow
  /-- code 3: a reserved command word (60_exceptions.md R183) -/
  | illegalCommand
deriving DecidableEq, Repr

/-- One entry of the event trace (10_state.md R34). -/
inductive Event where
  /-- SIG(x): the sink was invoked with x (10_state.md R33) -/
  | sig (x : Bool)
  /-- DIAG(code) (10_state.md R32) -/
  | diag (e : Error)
deriving DecidableEq, Repr

/-- The Encoder's transient registers, which exist only inside a SUBMIT (10_state.md R28; log 10). -/
structure Encoder where
  /-- PTR: the bit pointer into NEXT's content region -/
  ptr : Word
  /-- FAIL: the first error of the command, if any -/
  fail : Option Error
  /-- REM: the number of data beats still to be accepted -/
  rem : Nat
deriving DecidableEq, Repr

/-- BUF_INIT (00_scope.md R8): the content bytes of both buffers after a reset. -/
structure BufInit where
  buf0 : Memory
  buf1 : Memory
deriving DecidableEq, Repr

/-- The state of one block instance (10_state.md R20 to R35). -/
structure State where
  /-- the instance's parameters (00_scope.md R8; log 1) -/
  cfg : Params
  /-- BUF[0] (R22) -/
  buf0 : Memory
  /-- BUF[1] (R22) -/
  buf1 : Memory
  /-- LIVE_SEL (R23): `false` is 0, `true` is 1 -/
  liveSel : Bool
  /-- ELAPSED, in ms (R24) -/
  elapsed : Word
  /-- DOT, ms per unit (R25) -/
  dot : BitVec 16
  /-- REPEAT (R26) -/
  repeatFlag : Bool
  /-- REPEAT_NEXT (R27) -/
  repeatNext : Bool
  /-- SIG (R31) -/
  sig : Bool
  /-- LAST_DIAG (R32) -/
  lastDiag : BitVec 2
  /-- the Encoder's registers: none between commands (R28, R36) -/
  enc : Option Encoder
  /-- the event trace, oldest first (R34; log 12) -/
  trace : List Event
  /-- `cmd_valid`/`cmd_data` (R35): the words the host presents that are not yet part of a completed command, oldest
  first (log 3) -/
  port : List Word
  /-- `rst` (R35): asserted, with the BUF_INIT that this reset leaves, or not (log 5) -/
  rst : Option BufInit
deriving DecidableEq, Repr

/-- The block has no trap and no command stops it (60_exceptions.md R184, R188): there is no fault. -/
inductive Fault : Type where
deriving DecidableEq, Repr

/-- Why a step has no meaning. -/
inductive Refusal where
  /-- raised by an arm of `exec` whose command has no meaning yet; safe. No arm is left that raises it. -/
  | notModelled (mnemonic : String)
deriving DecidableEq, Repr

/-- The state after reset of an instance with parameters `p`, for one value of BUF_INIT (10_state.md R36).
The headers are not among `init`'s addresses (`BufInit.legal`), so both encoded lengths are 0. -/
def State.resetWith (p : Params) (init : BufInit) : State :=
  { cfg := p, buf0 := init.buf0, buf1 := init.buf1, liveSel := false, elapsed := 0#32, dot := p.dotReset,
    repeatFlag := false, repeatNext := false, sig := false, lastDiag := 0#2, enc := none, trace := [], port := [],
    rst := none }

/-- The machine right after reset: the default parameters (log 7), and nothing listed in either buffer.
DESIGN CHOICE (log 2, unsafe): BUF_INIT is then all 0x00; `State.resetWith` is the reset for every BUF_INIT. -/
def State.reset : State := State.resetWith Params.default { buf0 := [], buf1 := [] }

end Sys2Proof.Machine
end

