-- ==== Sys2Proof/Machine/Ops.lean ====
section
/-! DEFINITION. The operations over the buffers and the registers that every command is written with (00_scope.md R11,
R12), the diagnostic report, and the reset input. -/

namespace Sys2Proof.Machine

/-! ### Bytes of a buffer -/

/-- What an address no pair lists reads as.
DESIGN CHOICE (log 2, unsafe): content bytes nothing has written; the headers' reset value 0 is the spec's (10_state.md R36). -/
def Memory.unlisted : Byte := 0x00#8

/-- MemRead(b, a, 1) (00_scope.md R12). -/
def Memory.read : Memory → Nat → Byte
  | [], _ => Memory.unlisted
  | (b, v) :: m, a => if a = b then v else Memory.read m a

/-- MemWrite(b, a, 1, v) (00_scope.md R12), keeping the canonical form. -/
def Memory.write : Memory → Nat → Byte → Memory
  | [], a, v => if v = Memory.unlisted then [] else [(a, v)]
  | (b, w) :: m, a, v =>
    if a < b then if v = Memory.unlisted then (b, w) :: m else (a, v) :: (b, w) :: m
    else if a = b then if v = Memory.unlisted then m else (a, v) :: m
    else (b, w) :: Memory.write m a v

/-- The canonical form, for addresses from `lo` up: strictly rising, and no pair an unlisted address would read as. -/
def Memory.wfFrom : Nat → Memory → Bool
  | _, [] => true
  | lo, (a, v) :: m => decide (lo ≤ a) && decide (v ≠ Memory.unlisted) && Memory.wfFrom (a + 1) m

/-- The canonical form of a buffer. -/
def Memory.wf (m : Memory) : Bool := Memory.wfFrom 0 m

/-- Every listed address exists: it is below CAP (20_memory.md R50). -/
def Memory.below (cap : Nat) (m : Memory) : Bool := m.all fun c => decide (c.1 < cap)

/-- Len(b) = MemRead(b, 0, 4), big-endian (00_scope.md R12, 20_memory.md R52). -/
def Memory.len (m : Memory) : Word := m.read 0 ++ m.read 1 ++ m.read 2 ++ m.read 3

/-- SetLen(b, v) = MemWrite(b, 0, 4, v), big-endian (00_scope.md R12, 20_memory.md R52). -/
def Memory.setLen (m : Memory) (v : Word) : Memory :=
  let m0 := Memory.write m 0 (v.extractLsb' 24 8)
  let m1 := Memory.write m0 1 (v.extractLsb' 16 8)
  let m2 := Memory.write m1 2 (v.extractLsb' 8 8)
  Memory.write m2 3 (v.extractLsb' 0 8)

/-- byte_addr(k): the byte that holds content bit k (20_memory.md R53). -/
def byteAddr (k : Nat) : Nat := 4 + k / 8

/-- bit_pos(k): the position of content bit k in its byte (20_memory.md R53). -/
def bitPos (k : Nat) : Nat := k % 8

/-- bit_k of a buffer's content region (20_memory.md R53). -/
def Memory.contentBit (m : Memory) (k : Nat) : Bool := (m.read (byteAddr k)).getLsbD (bitPos k)

/-- ReadBit(b, i) (40_encoder.md R112): 0 at or past BITCAP, else the stored bit, whatever the header says. -/
def readBit (p : Params) (m : Memory) (i : Word) : Bool :=
  if i.toNat < p.bitcap then m.contentBit i.toNat else false

/-- BUF_INIT gives content bytes only: addresses 4..CAP-1 of each buffer (00_scope.md R8), in canonical form. -/
def BufInit.legal (p : Params) (init : BufInit) : Bool :=
  Memory.wfFrom 4 init.buf0 && Memory.below p.cap init.buf0 &&
    Memory.wfFrom 4 init.buf1 && Memory.below p.cap init.buf1

/-! ### Registers: reads and writes (00_scope.md R11) -/

/-- BUF[k] (10_state.md R22). -/
def State.buf (s : State) (k : Bool) : Memory := if k then s.buf1 else s.buf0

/-- LIVE = BUF[LIVE_SEL] (10_state.md R23). -/
def State.live (s : State) : Memory := s.buf s.liveSel

/-- NEXT = BUF[1 − LIVE_SEL] (10_state.md R23). -/
def State.next (s : State) : Memory := s.buf (!s.liveSel)

/-- BUF[k] <- m. -/
def State.setBuf (s : State) (k : Bool) (m : Memory) : State :=
  if k then { s with buf1 := m } else { s with buf0 := m }

/-- NEXT <- m. -/
def State.setNext (s : State) (m : Memory) : State := s.setBuf (!s.liveSel) m

/-- LIVE <- m. -/
def State.setLive (s : State) (m : Memory) : State := s.setBuf s.liveSel m

/-- LIVE_SEL <- x. -/
def State.setLiveSel (s : State) (x : Bool) : State := { s with liveSel := x }

/-- ELAPSED <- v. -/
def State.setElapsed (s : State) (v : Word) : State := { s with elapsed := v }

/-- DOT <- d (the value 0 is kept out by SETDOT, 41_playback.md R160). -/
def State.setDot (s : State) (d : BitVec 16) : State := { s with dot := d }

/-- REPEAT <- x. -/
def State.setRepeat (s : State) (x : Bool) : State := { s with repeatFlag := x }

/-- REPEAT_NEXT <- x. -/
def State.setRepeatNext (s : State) (x : Bool) : State := { s with repeatNext := x }

/-- SIG <- x. -/
def State.setSig (s : State) (x : Bool) : State := { s with sig := x }

/-- LAST_DIAG <- code. -/
def State.setLastDiag (s : State) (code : BitVec 2) : State := { s with lastDiag := code }

/-- The Encoder's registers <- e (10_state.md R28). -/
def State.setEnc (s : State) (e : Option Encoder) : State := { s with enc := e }

/-- Append one event to the trace (10_state.md R34). -/
def State.addEvent (s : State) (e : Event) : State := { s with trace := s.trace ++ [e] }

/-- The words the host presents on the command port (10_state.md R35). -/
def State.setPort (s : State) (ws : List Word) : State := { s with port := ws }

/-- The `rst` input (10_state.md R35). -/
def State.setRst (s : State) (r : Option BufInit) : State := { s with rst := r }

/-! ### Events -/

/-- Emit(x) (10_state.md R33): the sink invocation, whether or not x differs from SIG. -/
def State.emit (s : State) (x : Bool) : State := (s.setSig x).addEvent (.sig x)

/-- The 2-bit code of an error (60_exceptions.md R180). -/
def Error.code : Error → BitVec 2
  | .invalidCharacter => 1#2
  | .encodingOverflow => 2#2
  | .illegalCommand => 3#2

/-- Diag(code) (10_state.md R32, 60_exceptions.md R180): what this block has in place of taking an exception.
It saves nothing, changes no mode and redirects nothing (60_exceptions.md R184, R188). -/
def State.diag (s : State) (e : Error) : State := (s.setLastDiag e.code).addEvent (.diag e)

/-! ### The reset input (70_reset_and_hazards.md R200 to R202) -/

/-- The block has taken the first words of a SUBMIT whose data beats have not all come (30_encoding.md R73; log 4). -/
def State.awaitingBeats (s : State) : Bool :=
  match decode s.port with
  | .error (.beatsMissing _) => true
  | .error .noWord => false
  | .ok _ => false

/-- The effect of `rst` (R201): every piece of state takes its reset value, and no event is emitted.
The words of a SUBMIT still waiting for beats are lost with it (R202); other words were not taken, and the host still
presents them (R200; log 5). -/
def State.afterReset (s : State) (init : BufInit) : State :=
  (State.resetWith s.cfg init).setPort (if s.awaitingBeats then [] else s.port)

end Sys2Proof.Machine
end

