-- ==== Sys2Proof/Machine/Operands.lean ====
section
/-! DEFINITION. The operand forms: zero extension of T and D, and the class of a text character (30_encoding.md R74,
R79 to R81). -/

namespace Sys2Proof.Machine

/-- T = zext_32(w[27:0]) (30_encoding.md R74). -/
def elapsedMs (t : BitVec 28) : Word := t.setWidth 32

/-- Upper-casing: the 26 ASCII lower-case letters only (30_encoding.md R79). -/
def upperCase (c : Byte) : Byte :=
  if 0x61 ≤ c.toNat ∧ c.toNat ≤ 0x7A then c - 0x20#8 else c

/-- The class of a character (30_encoding.md R81). -/
inductive CharClass where
  | space
  | symbol (s : List Symbol)
  | invalid
deriving DecidableEq, Repr

/-- The class of an upper-cased byte u (30_encoding.md R81): space is tested first, then the digits and letters, then
the gap characters by GAP_CHAR_POLICY. -/
def classOfUpper (p : Params) (u : Nat) : CharClass :=
  if u = 0x20 then .space
  else if 0x30 ≤ u ∧ u ≤ 0x39 then .symbol (p.lut (u - 0x30))
  else if 0x41 ≤ u ∧ u ≤ 0x5A then .symbol (p.lut (u - 0x30))
  else if 0x3A ≤ u ∧ u ≤ 0x40 then
    match p.gapChar with
    | .invalid => .invalid
    | .emptyEntry => .symbol (p.lut (u - 0x30))
  else .invalid

/-- Class(c) (30_encoding.md R81, after R79). -/
def classOf (p : Params) (c : Byte) : CharClass := classOfUpper p (upperCase c).toNat

end Sys2Proof.Machine
end

