-- ==== Sys2Proof/Machine/Encoder.lean ====
section
/-! DEFINITION. The Bit Writer and the Encoder (40_encoder.md R102 to R130), and SUBMIT (41_playback.md R142 to R145). -/

namespace Sys2Proof.Machine

/-! ### Bit Writer (40_encoder.md R110) -/

/-- Write content bit k: clear its byte when k is the byte's bit 0, then OR the value in. -/
def writeBit (m : Memory) (k : Nat) (v : Bool) : Memory :=
  let cleared := if bitPos k = 0 then Memory.write m (byteAddr k) 0x00#8 else m
  Memory.write cleared (byteAddr k)
    (Memory.read cleared (byteAddr k) ||| (BitVec.ofBool v).setWidth 8 <<< bitPos k)

/-- Write n bits of value v from content bit k on, in increasing order. -/
def writeBits (m : Memory) (k : Nat) (v : Bool) : Nat → Memory
  | 0 => m
  | n + 1 => writeBits (writeBit m k v) (k + 1) v n

/-- AppendRun(b, i, v, n) (40_encoder.md R110): `none` is OVERFLOW, and then nothing is written. -/
def appendRun (p : Params) (m : Memory) (i : Word) (v : Bool) (n : Nat) : Option Memory :=
  if p.bitcap < i.toNat + n then none else some (writeBits m i.toNat v n)

/-! ### Encoder (40_encoder.md R120 to R127) -/

/-- A run of `count` units of value `value`. -/
structure Run where
  value : Bool
  count : Nat
deriving DecidableEq, Repr

/-- The on units of a symbol (40_encoder.md R102). -/
def onUnits : Symbol → Nat
  | .dot => 1
  | .dash => 3

/-- The runs of one symbol: the inter-element gap, then the symbol (40_encoder.md R123). -/
def symbolRuns (y : Symbol) : List Run := [⟨false, 1⟩, ⟨true, onUnits y⟩]

/-- The runs of a space (40_encoder.md R122). -/
def spaceRuns : List Run := [⟨false, 4⟩]

/-- The runs of a letter or digit with symbol string s (40_encoder.md R123). -/
def letterRuns (s : List Symbol) : List Run := ⟨false, 2⟩ :: s.flatMap symbolRuns

/-- The runs of the trailer: three spaces (40_encoder.md R125). -/
def trailerRuns : List Run := [⟨false, 4⟩, ⟨false, 4⟩, ⟨false, 4⟩]

/-- What an encode works on: the target buffer and the Encoder's registers. -/
structure Encoding where
  buf : Memory
  regs : Encoder
deriving DecidableEq, Repr

/-- `raise e` (40_encoder.md R121): only the first error of a SUBMIT is kept.
The header is written when the encode ends (92_eei_decisions.md D31). -/
def Encoding.raise (x : Encoding) (e : Error) : Encoding :=
  match x.regs.fail with
  | none => { x with regs := { x.regs with fail := some e } }
  | some _ => x

/-- Run(v, n) (40_encoder.md R120, R127); after an error nothing more is written (R121). -/
def Encoding.run (p : Params) (x : Encoding) (r : Run) : Encoding :=
  match x.regs.fail with
  | some _ => x
  | none =>
    match appendRun p x.buf x.regs.ptr r.value r.count with
    | none => x.raise .encodingOverflow
    | some m => { buf := m, regs := { x.regs with ptr := x.regs.ptr + BitVec.ofNat 32 r.count } }

/-- Runs one after another. -/
def Encoding.runs (p : Params) (x : Encoding) (rs : List Run) : Encoding := rs.foldl (Encoding.run p) x

/-- One data beat is accepted (30_encoding.md R73): REM counts it, after an error too (40_encoder.md R121). -/
def Encoding.beat (x : Encoding) : Encoding := { x with regs := { x.regs with rem := x.regs.rem - 1 } }

/-- One character (40_encoder.md R120): SPACE R122, SYMBOL R123, INVALID R124. -/
def Encoding.char (p : Params) (x : Encoding) (c : Byte) : Encoding :=
  match classOf p c with
  | .invalid => x.raise .invalidCharacter
  | .space => x.runs p spaceRuns
  | .symbol s => x.runs p (letterRuns s)

/-- The characters of the text, one data beat each (40_encoder.md R120, 30_encoding.md R73). -/
def Encoding.text (p : Params) (x : Encoding) (text : List Byte) : Encoding :=
  text.foldl (fun x c => (x.char p c).beat) x

/-- The Encoder's registers when a SUBMIT of n data beats begins (10_state.md R28, 40_encoder.md R120). -/
def Encoder.start (n : Nat) : Encoder := { ptr := 0#32, fail := none, rem := n }

/-- The characters and the trailer (40_encoder.md R120, R125): the encode but for the header. -/
def Encoding.body (p : Params) (x : Encoding) (text : List Byte) : Encoding :=
  (x.text p text).runs p trailerRuns

/-- The header, written once, at the end (40_encoder.md R121, R126): PTR on success, 0 on failure. -/
def Encoding.finish (x : Encoding) : Memory :=
  match x.regs.fail with
  | none => Memory.setLen x.buf x.regs.ptr
  | some _ => Memory.setLen x.buf 0#32

/-- Encode(b, c) (40_encoder.md R120): the buffer it leaves, and its code (`none` is 0). -/
def encodeText (p : Params) (m : Memory) (text : List Byte) : Memory × Option Error :=
  let x := Encoding.body p ⟨m, Encoder.start text.length⟩ text
  (x.finish, x.regs.fail)

/-! ### SUBMIT (41_playback.md R142) -/

/-- The encode half of SUBMIT, through the Encoder's registers of the state (10_state.md R28): they start with PTR = 0 and
REM = N (40_encoder.md R120), and the encode works on NEXT (R130). -/
def State.encodeNext (s : State) (text : List Byte) : State :=
  let started := s.setEnc (some (Encoder.start text.length))
  match started.enc with
  | none => started
  | some regs =>
    let x := Encoding.body s.cfg ⟨started.next, regs⟩ text
    (started.setNext x.finish).setEnc (some x.regs)

/-- The code the Encoder leaves in FAIL (40_encoder.md R121, R126). -/
def State.encodeCode (s : State) : Option Error := s.enc.bind (·.fail)

/-- SUBMIT's result (41_playback.md R144): LAST_DIAG <- 0 with no event, or Diag(code). -/
def State.submitResult (s : State) : Option Error → State
  | none => s.setLastDiag 0#2
  | some e => s.diag e

/-- SUBMIT / SUBMIT.R (41_playback.md R142): the flag writes do not depend on the encode's result (R143), and the
Encoder's registers have no value once the command is complete (10_state.md R28).
A text of more than 65535 characters, which no word announces, is encoded all the same (log 9). -/
def execSubmit (r : Bool) (text : List Byte) (s : State) : Host.Outcome State Fault Refusal :=
  let encoded := s.encodeNext text
  let flagged := (encoded.setRepeatNext r).setRepeat false
  .next ((flagged.submitResult encoded.encodeCode).setEnc none)

end Sys2Proof.Machine
end

