-- ==== Sys2Proof/Machine/Playback.lean ====
section
/-! DEFINITION. The playback commands NOP, TICK, STOP, INTERRUPT and SETDOT, and the reserved words
(41_playback.md R141, R146 to R165). -/

namespace Sys2Proof.Machine

/-- NOP (41_playback.md R141). -/
def execNop (s : State) : Host.Outcome State Fault Refusal := .next s

/-! ### TICK (41_playback.md R146) -/

/-- bit_index = ELAPSED / DOT (R149), unsigned 32-bit by 16-bit, truncating.
DOT is never 0 (10_state.md R25); for a DOT of 0 the quotient is a free value (log 6). -/
def bitIndex (elapsed : Word) (dot : BitVec 16) : Word :=
  if dot = 0#16 then Config.indexWithZeroDot elapsed else elapsed / dot.setWidth 32

/-- Both buffers are empty, and a TICK does nothing (R147). -/
def State.bothEmpty (s : State) : Bool := decide (s.live.len = 0#32) && decide (s.next.len = 0#32)

/-- ELAPSED after the tick's accumulation, modulo 2^32 (R148). -/
def State.accumulated (s : State) (t : BitVec 28) : Word := s.elapsed + elapsedMs t

/-- The tick's bit_index (R149). -/
def State.tickIndex (s : State) (t : BitVec 28) : Word := bitIndex (s.accumulated t) s.dot

/-- The tick is at a boundary: idx >= Len(LIVE), unsigned (R150). -/
def State.atBoundary (s : State) (t : BitVec 28) : Bool := decide (s.live.len ≤ s.tickIndex t)

/-- The swap (R152), in its order: roles, REPEAT, REPEAT_NEXT, then the header of the buffer that was live. -/
def State.swap (s : State) : State :=
  let roles := s.setLiveSel (!s.liveSel)
  let flags := (roles.setRepeat roles.repeatNext).setRepeatNext false
  flags.setNext (Memory.setLen flags.next 0#32)

/-- A boundary (R150): swap when REPEAT = 0 (R152), nothing more when REPEAT = 1 (R151); ELAPSED <- 0 in both cases. -/
def State.boundary (s : State) : State :=
  (if s.repeatFlag then s else s.swap).setElapsed 0#32

/-- The index of a boundary tick's emitting read (R153). -/
def boundaryReadIndex (policy : SwapReadPolicy) (idx : Word) : Word :=
  match policy with
  | .quirk => idx
  | .fixed => 0#32

/-- Emit(ReadBit(LIVE, idx)) (R153, R154), from the buffer that is live now. -/
def State.emitBit (s : State) (idx : Word) : State := s.emit (readBit s.cfg s.live idx)

/-- TICK (R146). -/
def execTick (t : BitVec 28) (s : State) : Host.Outcome State Fault Refusal :=
  if s.bothEmpty then .next s
  else
    let ticked := s.setElapsed (s.accumulated t)
    if s.atBoundary t then
      .next (ticked.boundary.emitBit (boundaryReadIndex s.cfg.swapRead (s.tickIndex t)))
    else .next (ticked.emitBit (s.tickIndex t))

/-! ### STOP, INTERRUPT, SETDOT and the reserved words -/

/-- STOP (41_playback.md R156). -/
def execStop (s : State) : Host.Outcome State Fault Refusal := .next (s.setRepeat false)

/-- INTERRUPT (41_playback.md R157). -/
def execInterrupt (s : State) : Host.Outcome State Fault Refusal :=
  .next ((s.setLive (Memory.setLen s.live 0#32)).setRepeat false)

/-- SETDOT (41_playback.md R160): a D of 0 leaves DOT unchanged and raises nothing. -/
def execSetdot (d : BitVec 16) (s : State) : Host.Outcome State Fault Refusal :=
  .next (if d ≠ 0#16 then s.setDot d else s)

/-- A reserved command word (41_playback.md R165): IllegalCommand, and nothing else. -/
def State.reservedWord (s : State) : State := s.diag .illegalCommand

/-- A reserved word with OP 0x6 or 0x7 (41_playback.md R165); which of the two it is does not matter. -/
def execReservedLow (_op : BitVec 1) (s : State) : Host.Outcome State Fault Refusal := .next s.reservedWord

/-- A reserved word with OP 0x8..0xF (41_playback.md R165); which of them it is does not matter. -/
def execReservedHigh (_op : BitVec 3) (s : State) : Host.Outcome State Fault Refusal := .next s.reservedWord

end Sys2Proof.Machine
end

