-- ==== Sys2Proof/Machine/Dispatch.lean ====
section
/-! DEFINITION. One arm per command (30_encoding.md R72). -/

namespace Sys2Proof.Machine

/-- The effect of one command, an atomic step of the block (00_scope.md R7). -/
def exec (i : Instr) (s : State) : Host.Outcome State Fault Refusal :=
  match i with
  | .nop => Sys2Proof.Machine.execNop s
  | .submit r text => Sys2Proof.Machine.execSubmit r text s
  | .tick t => Sys2Proof.Machine.execTick t s
  | .stop => Sys2Proof.Machine.execStop s
  | .interrupt => Sys2Proof.Machine.execInterrupt s
  | .setdot d => Sys2Proof.Machine.execSetdot d s
  | .reservedLow op => Sys2Proof.Machine.execReservedLow op s
  | .reservedHigh op => Sys2Proof.Machine.execReservedHigh op s

end Sys2Proof.Machine
end

