-- ==== Sys2Proof/Machine/Flags.lean ====
section
/-! DEFINITION. The derived playback state, STATUS and the outputs (10_state.md R29 to R35). -/

namespace Sys2Proof.Machine

/-- The playback states (10_state.md R29, 41_playback.md R170). -/
inductive PlayState where
  | idle
  | pending
  | playing
  | repeating
deriving DecidableEq, Repr

/-- The STATE field's code (10_state.md R30). -/
def PlayState.code : PlayState → BitVec 2
  | .idle => 0#2
  | .pending => 1#2
  | .playing => 2#2
  | .repeating => 3#2

/-- STATE (10_state.md R29). -/
def State.playState (s : State) : PlayState :=
  if s.live.len = 0#32 then
    if s.next.len = 0#32 then .idle else .pending
  else if s.repeatFlag then .repeating else .playing

/-- STATUS.BUSY (10_state.md R30): a SUBMIT is in progress (log 4, log 10). -/
def State.busy (s : State) : Bool := s.enc.isSome || s.awaitingBeats

/-- STATUS (10_state.md R30): from bit 31 down, 23 zeros, BUSY, LAST_DIAG, STATE, REPEAT_NEXT, REPEAT, LIVE_SEL, SIG. -/
def State.statusWord (s : State) : Word :=
  0#23 ++ BitVec.ofBool s.busy ++ s.lastDiag ++ s.playState.code ++ BitVec.ofBool s.repeatNext ++
    BitVec.ofBool s.repeatFlag ++ BitVec.ofBool s.liveSel ++ BitVec.ofBool s.sig

/-- `sig_level` (10_state.md R35). -/
def State.sigLevel (s : State) : Bool := s.sig

/-- `cmd_ready` for a command word (10_state.md R35, 20_memory.md R57, 70_reset_and_hazards.md R200, R204): low while a
command is in progress and while `rst` is high. -/
def State.cmdReady (s : State) : Bool := s.rst.isNone && !s.busy

/-- The events a step appended to the trace (10_state.md R34). -/
def newEvents (before after : State) : List Event := after.trace.drop before.trace.length

/-- The `sig_strobe` pulses of a step, each with the level it drives (10_state.md R33, R35; log 11). -/
def sigStrobes (before after : State) : List Bool :=
  (newEvents before after).filterMap fun e =>
    match e with
    | .sig x => some x
    | .diag _ => none

/-- The `diag_valid` pulses of a step, each with its `diag_code` (10_state.md R32, R35; log 11). -/
def diagPulses (before after : State) : List (BitVec 2) :=
  (newEvents before after).filterMap fun e =>
    match e with
    | .sig _ => none
    | .diag err => some err.code

end Sys2Proof.Machine
end

