-- ==== Sys2Proof/Machine/Step.lean ====
section
/-! DEFINITION. One step of the block: a reset, one command, or waiting for the host. -/

namespace Sys2Proof.Machine

/-- One step (00_scope.md R7).
While `rst` is asserted the block resets and accepts no word (70_reset_and_hazards.md R200, R201).
Otherwise, when the host has presented a whole command, its words are taken and it is executed (30_encoding.md R70);
when it has not, the block waits (log 4). -/
def step (s : State) : Host.Outcome State Fault Refusal :=
  match s.rst with
  | some init => .next (s.afterReset init)
  | none =>
    match decode s.port with
    | .ok (i, rest) => exec i (s.setPort rest)
    | .error _ => .next s

/-- `s` with the host presenting one instruction, given as the opcode table numbers its bits, and `rst` not asserted:
the next step takes exactly that instruction (log 3). -/
def State.withFetchWord (s : State) (nbits w : Nat) : State :=
  (s.setPort (tableWords nbits w)).setRst none

end Sys2Proof.Machine
end

