-- ==== Sys2Proof/Machine/Assembler.lean ====
section
/-! DEFINITION. The assembly syntax and the pseudo-instructions (30_encoding.md R82, R83), over the bytes of the source
text. It reads no state of the machine: it is how a test program's words are written down. -/

namespace Sys2Proof.Machine

/-- One line of assembly (30_encoding.md R82, R83). -/
inductive AsmLine where
  /-- an empty line, or only a comment -/
  | empty
  | nop
  /-- `SUBMIT "text"` (r = 0) and `SUBMIT.R "text"` (r = 1) -/
  | submit (r : Bool) (text : List Byte)
  | tick (t : Nat)
  | stop
  | interrupt
  | setdot (d : Nat)
  /-- `.word w` -/
  | word (w : Nat)
  /-- `PLAY "text"`, pseudo (R83) -/
  | play (text : List Byte)
  /-- `LOOP "text"`, pseudo (R83) -/
  | loop (text : List Byte)
  /-- `WAIT n, t`, pseudo (R83) -/
  | wait (n t : Nat)
deriving DecidableEq, Repr

/-- The words of a SUBMIT line: a string longer than 65535 bytes is rejected (R82). -/
def assembleSubmit (r : Bool) (text : List Byte) : Option (List Word) :=
  if text.length ≤ 65535 then some (encode (.submit r text)) else none

/-- The word of a TICK line: 0 ≤ t ≤ 2^28 − 1 (R82). -/
def assembleTick (t : Nat) : Option Word :=
  if t < 2 ^ 28 then some (commandWord (.tick (BitVec.ofNat 28 t))) else none

/-- The port words of one line; an out-of-range number or string is rejected (R82, R83). -/
def assemble : AsmLine → Option (List Word)
  | .empty => some []
  | .nop => some (encode .nop)
  | .submit r text => assembleSubmit r text
  | .tick t => (assembleTick t).map fun w => [w]
  | .stop => some (encode .stop)
  | .interrupt => some (encode .interrupt)
  | .setdot d => if d ≤ 65535 then some (encode (.setdot (BitVec.ofNat 16 d))) else none
  | .word w => if w < 2 ^ 32 then some [BitVec.ofNat 32 w] else none
  | .play text => assembleSubmit false text
  | .loop text => assembleSubmit true text
  | .wait n t => (assembleTick t).map (List.replicate n)

/-! ### Reading a line (log 17) -/

/-- The ASCII bytes of some characters. -/
def asciiBytes (cs : List Char) : List Byte := cs.map fun c => BitVec.ofNat 8 c.toNat

/-- The value of a decimal digit. -/
def decDigit (b : Byte) : Option Nat :=
  if 0x30 ≤ b.toNat ∧ b.toNat ≤ 0x39 then some (b.toNat - 0x30) else none

/-- The value of a hexadecimal digit. -/
def hexDigit (b : Byte) : Option Nat :=
  if 0x30 ≤ b.toNat ∧ b.toNat ≤ 0x39 then some (b.toNat - 0x30)
  else if 0x41 ≤ b.toNat ∧ b.toNat ≤ 0x46 then some (b.toNat - 0x41 + 10)
  else if 0x61 ≤ b.toNat ∧ b.toNat ≤ 0x66 then some (b.toNat - 0x61 + 10)
  else none

/-- The number some digits write in a base. -/
def digitsValue (base : Nat) (digit : Byte → Option Nat) (acc : Nat) : List Byte → Option Nat
  | [] => some acc
  | b :: bs =>
    match digit b with
    | some d => digitsValue base digit (acc * base + d) bs
    | none => none

/-- A number: decimal, or hexadecimal with `0x` (R82). -/
def asmNumber : List Byte → Option Nat
  | [] => none
  | [b] => decDigit b
  | b :: c :: bs =>
    if b = 0x30#8 ∧ c = 0x78#8 then
      if bs.isEmpty then none else digitsValue 16 hexDigit 0 bs
    else digitsValue 10 decDigit 0 (b :: c :: bs)

/-- The bytes of a string literal after its opening quote, and what follows the closing one (R82): the escapes are
backslash backslash, backslash quote, and backslash `x` with two hexadecimal digits. -/
def stringBody : Nat → List Byte → Option (List Byte × List Byte)
  | 0, _ => none
  | _ + 1, [] => none
  | fuel + 1, b :: bs =>
    if b = 0x22#8 then some ([], bs)
    else if b = 0x5C#8 then
      match bs with
      | [] => none
      | c :: cs =>
        if c = 0x5C#8 ∨ c = 0x22#8 then (stringBody fuel cs).map fun r => (c :: r.1, r.2)
        else if c = 0x78#8 then
          match cs with
          | h :: l :: rest =>
            match hexDigit h, hexDigit l with
            | some hv, some lv => (stringBody fuel rest).map fun r => (BitVec.ofNat 8 (16 * hv + lv) :: r.1, r.2)
            | _, _ => none
          | _ => none
        else none
    else (stringBody fuel bs).map fun r => (b :: r.1, r.2)

/-- The tokens of a line. -/
inductive AsmToken where
  /-- a mnemonic or a number -/
  | name (bs : List Byte)
  /-- a string literal -/
  | str (bs : List Byte)
  | comma
deriving DecidableEq, Repr

/-- Blank space inside a line: space, tab, carriage return. -/
def isBlank (b : Byte) : Bool := b == 0x20#8 || b == 0x09#8 || b == 0x0D#8

/-- A byte of a mnemonic or number. -/
def isNameByte (b : Byte) : Bool := !(isBlank b || b == 0x22#8 || b == 0x2C#8 || b == 0x3B#8)

/-- The tokens of a line; `;` starts a comment (R82). -/
def asmTokens : Nat → List Byte → Option (List AsmToken)
  | 0, _ => none
  | _ + 1, [] => some []
  | fuel + 1, b :: bs =>
    if isBlank b then asmTokens fuel bs
    else if b = 0x3B#8 then some []
    else if b = 0x2C#8 then (asmTokens fuel bs).map (AsmToken.comma :: ·)
    else if b = 0x22#8 then
      match stringBody (bs.length + 1) bs with
      | some (text, rest) => (asmTokens fuel rest).map (AsmToken.str text :: ·)
      | none => none
    else
      (asmTokens fuel (bs.dropWhile isNameByte)).map (AsmToken.name (b :: bs.takeWhile isNameByte) :: ·)

/-- A line of a mnemonic without operand. -/
def asmPlain (m : List Byte) : Option AsmLine :=
  if m = asciiBytes ['N', 'O', 'P'] then some .nop
  else if m = asciiBytes ['S', 'T', 'O', 'P'] then some .stop
  else if m = asciiBytes ['I', 'N', 'T', 'E', 'R', 'R', 'U', 'P', 'T'] then some .interrupt
  else none

/-- A line of a mnemonic and a string. -/
def asmWithText (m text : List Byte) : Option AsmLine :=
  if m = asciiBytes ['S', 'U', 'B', 'M', 'I', 'T'] then some (.submit false text)
  else if m = asciiBytes ['S', 'U', 'B', 'M', 'I', 'T', '.', 'R'] then some (.submit true text)
  else if m = asciiBytes ['P', 'L', 'A', 'Y'] then some (.play text)
  else if m = asciiBytes ['L', 'O', 'O', 'P'] then some (.loop text)
  else none

/-- A line of a mnemonic and a number. -/
def asmWithNumber (m n : List Byte) : Option AsmLine :=
  if m = asciiBytes ['T', 'I', 'C', 'K'] then (asmNumber n).map .tick
  else if m = asciiBytes ['S', 'E', 'T', 'D', 'O', 'T'] then (asmNumber n).map .setdot
  else if m = asciiBytes ['.', 'w', 'o', 'r', 'd'] then (asmNumber n).map .word
  else none

/-- A line of a mnemonic and two numbers. -/
def asmWithTwo (m a b : List Byte) : Option AsmLine :=
  if m = asciiBytes ['W', 'A', 'I', 'T'] then
    match asmNumber a, asmNumber b with
    | some n, some t => some (.wait n t)
    | _, _ => none
  else none

/-- One line of assembly from its tokens (R82, R83). -/
def asmParse : List AsmToken → Option AsmLine
  | [] => some .empty
  | [.name m] => asmPlain m
  | [.name m, .str text] => asmWithText m text
  | [.name m, .name n] => asmWithNumber m n
  | [.name m, .name a, .comma, .name b] => asmWithTwo m a b
  | _ => none

/-- The port words of one source line. -/
def assembleSource (line : List Byte) : Option (List Word) :=
  match asmTokens (line.length + 1) line with
  | some tokens => (asmParse tokens).bind assemble
  | none => none

/-- The port words of a source text, one line after another: `none` if a line is rejected. -/
def assembleLines : List (List Byte) → Option (List Word)
  | [] => some []
  | line :: lines =>
    match assembleSource line, assembleLines lines with
    | some ws, some rest => some (ws ++ rest)
    | _, _ => none

end Sys2Proof.Machine
end

