-- ==== Sys2Proof/Safety.lean ====
section
/-! DEFINITION. The machine's invariant (10_state.md R39), and the reference functions of the spec that claims are stated
with: unit costs and patterns, and the units of a text. -/

namespace Sys2Proof.Machine

/-! ### The invariant -/

/-- A buffer holds the bytes of addresses 0..CAP-1, in the canonical form (20_memory.md R50). -/
def Memory.legalFor (p : Params) (m : Memory) : Bool := m.wf && m.below p.cap

/-- An encoded length a buffer may have: at most BITCAP, and 0 or at least the trailer's 12 (10_state.md R39, items 1 and 2). -/
abbrev Memory.lenLegal (p : Params) (m : Memory) : Prop :=
  m.len.toNat ≤ p.bitcap ∧ (m.len = 0#32 ∨ 12 ≤ m.len.toNat)

/-- The invariant every step keeps (10_state.md R39, with 41_playback.md R148's bound and R155 item 5). -/
structure State.Inv (s : State) : Prop where
  /-- the parameters have legal values (00_scope.md R8) -/
  params : s.cfg.legal = true
  /-- BUF[0] is a buffer of CAP bytes -/
  buf0 : s.buf0.legalFor s.cfg = true
  /-- BUF[1] is a buffer of CAP bytes -/
  buf1 : s.buf1.legalFor s.cfg = true
  /-- R39 items 1 and 2 for BUF[0] -/
  len0 : s.buf0.lenLegal s.cfg
  /-- R39 items 1 and 2 for BUF[1] -/
  len1 : s.buf1.lenLegal s.cfg
  /-- R39 item 3 -/
  dot : s.dot ≠ 0#16
  /-- 41_playback.md R155 item 5: PENDING implies REPEAT = 0 -/
  pending : s.live.len = 0#32 → s.next.len ≠ 0#32 → s.repeatFlag = false
  /-- 41_playback.md R148: ELAPSED < BITCAP * 65535 -/
  elapsed : s.elapsed.toNat < s.cfg.bitcap * 65535
  /-- the Encoder's registers have no value between commands (10_state.md R28) -/
  enc : s.enc = none
  /-- the BUF_INIT of an asserted reset gives content bytes of both buffers -/
  rst : ∀ init, s.rst = some init → init.legal s.cfg = true

/-! ### Unit costs and patterns (40_encoder.md R103, R105) -/

/-- cost of a class (40_encoder.md R103); an INVALID character has none. -/
def classCost : CharClass → Nat
  | .space => 4
  | .symbol s => 2 + (s.map fun y => 1 + onUnits y).sum
  | .invalid => 0

/-- cost of a character (40_encoder.md R103). -/
def charCost (p : Params) (c : Byte) : Nat := classCost (classOf p c)

/-- The costs of a text's characters, added up (40_encoder.md R128). -/
def textCost (p : Params) (text : List Byte) : Nat := (text.map (charCost p)).sum

/-- The units of one symbol with its inter-element gap (40_encoder.md R105). -/
def symbolUnits : Symbol → List Bool
  | .dot => [false, true]
  | .dash => [false, true, true, true]

/-- The unit pattern of a class, first unit first (40_encoder.md R105); an INVALID character has none. -/
def classUnits : CharClass → List Bool
  | .space => [false, false, false, false]
  | .symbol s => false :: false :: s.flatMap symbolUnits
  | .invalid => []

/-- The unit pattern of a character (40_encoder.md R105). -/
def charUnits (p : Params) (c : Byte) : List Bool := classUnits (classOf p c)

/-- The units of an inter-message separator (40_encoder.md R125). -/
def trailerUnits : List Bool := List.replicate 12 false

/-- The units of a whole message: its characters' patterns, then the trailer (40_encoder.md R120, R125). -/
def messageUnits (p : Params) (text : List Byte) : List Bool := text.flatMap (charUnits p) ++ trailerUnits

/-- Is the character's class INVALID (30_encoding.md R81)? -/
def invalidChar (p : Params) (c : Byte) : Bool := classOf p c == .invalid

/-- The characters before the first INVALID one (40_encoder.md R128). -/
def validPrefix (p : Params) (text : List Byte) : List Byte := text.takeWhile fun c => !invalidChar p c

/-- The result 40_encoder.md R128 gives for a text: success, InvalidCharacter or EncodingOverflow. -/
def expectedResult (p : Params) (text : List Byte) : Option Error :=
  if text.any (invalidChar p) then
    if textCost p (validPrefix p text) ≤ p.bitcap then some .invalidCharacter else some .encodingOverflow
  else if textCost p text + 12 ≤ p.bitcap then none else some .encodingOverflow

/-! ### Content left by a sequence of runs (40_encoder.md R113) -/

/-- `after` is `before` with the units `us` written from content bit 0 on, as 40_encoder.md R113 says: the units themselves,
zeros up to the end of the last touched byte, and every other byte unchanged. -/
structure UnitsWritten (before after : Memory) (us : List Bool) : Prop where
  units : ∀ k, (h : k < us.length) → after.contentBit k = us[k]
  padding : ∀ k, us.length ≤ k → k < 8 * ((us.length + 7) / 8) → after.contentBit k = false
  header : ∀ a, a < 4 → after.read a = before.read a
  beyond : ∀ a, 4 + (us.length + 7) / 8 ≤ a → after.read a = before.read a

/-- The units of a run sequence. -/
def runUnits (rs : List Run) : List Bool := rs.flatMap fun r => List.replicate r.count r.value

/-! ### How far an encode gets (40_encoder.md R127, R129) -/

/-- The runs of a character (40_encoder.md R122, R123); an INVALID character has none. -/
def charRuns (p : Params) (c : Byte) : List Run :=
  match classOf p c with
  | .space => spaceRuns
  | .symbol s => letterRuns s
  | .invalid => []

/-- The runs of an encode of unlimited capacity: up to the first INVALID character, or all of them and the trailer
(40_encoder.md R120, R124, R125). -/
def runsAttempted (p : Params) (text : List Byte) : List Run :=
  if text.any (invalidChar p) then (validPrefix p text).flatMap (charRuns p)
  else text.flatMap (charRuns p) ++ trailerRuns

/-- The runs before the first one that would pass `cap`, when `used` bits stand already (40_encoder.md R110, R127). -/
def runsThatFit (cap : Nat) : Nat → List Run → List Run
  | _, [] => []
  | used, r :: rs => if used + r.count ≤ cap then r :: runsThatFit cap (used + r.count) rs else []

/-- The units an encode writes, whether it succeeds or fails (40_encoder.md R129). -/
def writtenUnits (p : Params) (text : List Byte) : List Bool :=
  runUnits (runsThatFit p.bitcap 0 (runsAttempted p text))

/-! ### Used bits of a command word (30_encoding.md R72, R75) -/

/-- The bits of a command word that are not reserved or ignored, by its OP (R72). -/
def usedBits (op : BitVec 4) : Word :=
  if op = 0x1#4 then 0xF800FFFF#32
  else if op = 0x2#4 then 0xFFFFFFFF#32
  else if op = 0x5#4 then 0xF000FFFF#32
  else 0xF0000000#32

/-! ### The transition table (41_playback.md R171) -/

/-- What the table's "emits" column says a command emits. -/
inductive Emits where
  | nothing
  | sig
  | diag (e : Error)
deriving DecidableEq, Repr

/-- The state after a swap (R171): by REPEAT_NEXT and the buffer swapped in. -/
def swapTarget (s : State) : PlayState :=
  if s.next.len = 0#32 then .idle else if s.repeatNext then .repeating else .playing

/-- The state after SUBMIT (R171). -/
def submitTarget (from_ : PlayState) (ok : Bool) : PlayState :=
  match from_ with
  | .idle => if ok then .pending else .idle
  | .pending => if ok then .pending else .idle
  | .playing => .playing
  | .repeating => .playing

/-- The state after INTERRUPT (R171). -/
def interruptTarget (s : State) : PlayState :=
  match s.playState with
  | .idle => .idle
  | .pending => .pending
  | .playing => if s.next.len = 0#32 then .idle else .pending
  | .repeating => if s.next.len = 0#32 then .idle else .pending

/-- The state after TICK with quotient `idx` (R171). -/
def tickTarget (s : State) (idx : Nat) : PlayState :=
  match s.playState with
  | .idle => .idle
  | .pending => if s.repeatNext then .repeating else .playing
  | .playing => if idx < s.live.len.toNat then .playing else swapTarget s
  | .repeating => .repeating

/-- ELAPSED after a tick's accumulation, as a number (41_playback.md R148). -/
def tickElapsed (s : State) (t : BitVec 28) : Nat := (s.elapsed.toNat + t.toNat) % 2 ^ 32

/-- A tick's bit_index, as a number, for a legal DOT (41_playback.md R149). -/
def tickQuotient (s : State) (t : BitVec 28) : Nat := tickElapsed s t / s.dot.toNat

/-- The row of the transition table for a command in a state (R171): the state it leads to, and what it emits. -/
def transitionRow (s : State) : Instr → PlayState × Emits
  | .nop => (s.playState, .nothing)
  | .submit _ text =>
    (submitTarget s.playState (expectedResult s.cfg text == none),
      match expectedResult s.cfg text with
      | none => .nothing
      | some e => .diag e)
  | .tick t => (tickTarget s (tickQuotient s t), if s.playState = .idle then .nothing else .sig)
  | .stop => (if s.playState = .repeating then .playing else s.playState, .nothing)
  | .interrupt => (interruptTarget s, .nothing)
  | .setdot _ => (s.playState, .nothing)
  | .reservedLow _ => (s.playState, .diag .illegalCommand)
  | .reservedHigh _ => (s.playState, .diag .illegalCommand)

/-- The trace after a command that emits as the table says (R171; 10_state.md R33). -/
def emittedTrace (before after : State) : Emits → List Event
  | .nothing => before.trace
  | .sig => before.trace ++ [.sig after.sig]
  | .diag e => before.trace ++ [.diag e]

end Sys2Proof.Machine
end

