-- ==== Sys2Proof/Certificates/Slice0/Obligations.lean ====
section
/-! DEFINITION. The statements for the provers. -/

open Sys2Proof Sys2Proof.Machine

/-! ### Encoding -/

/-- Decoding the words of a well-formed command gives the command back, whatever follows (30_encoding.md R71 to R74). -/
def Obligations.DecodeOfEncodeGivesCommandBack : Prop :=
  ∀ (i : Instr) (rest : List Word), i.wf = true → decode (encode i ++ rest) = .ok (i, rest)

/-- Encoding a decoded command gives its words back, but for the bits R72 and R73 call reserved or ignored, which are 0
(30_encoding.md R72, R73, R75; the assembler writes the reserved bits of OP 0 to 5 and of beats as 0: R82).
That a reserved command, OP 0x6..0xF, encodes with bits 27:0 zero is the model's own, no rule of the spec: those bits are
not kept (log 8). -/
def Obligations.EncodeOfDecodeClearsReservedBits : Prop :=
  ∀ (ws rest : List Word) (i : Instr), decode ws = .ok (i, rest) →
    i.wf = true ∧ ∃ w beats, ws = w :: (beats ++ rest) ∧
      encode i = (w &&& usedBits (opField w)) :: beats.map fun b => b &&& 0x000000FF#32

/-- Words that differ only in reserved or ignored bits are the same command to the decoder and to a step, and the encoder's
words have those bits 0 (30_encoding.md R75 for OP 0 to 5 and data beats; R72 and 41_playback.md R165 for bits 27:0 of OP
0x6..0xF).
Two things are the model's own, no rules of the spec: that the presented words are a list in the state (log 3), and that
the encoder's words for OP 0x6..0xF have bits 27:0 zero (log 8). -/
def Obligations.ReservedBitsAreIgnored : Prop :=
  (∀ (w w' : Word) (beats beats' rest : List Word),
    w &&& usedBits (opField w) = w' &&& usedBits (opField w) →
    beats.map (fun b => b &&& 0x000000FF#32) = beats'.map (fun b => b &&& 0x000000FF#32) →
    beats.length = beatCount w →
    decode (w :: (beats ++ rest)) = decode (w' :: (beats' ++ rest)) ∧
      ∀ s : State, s.rst = none →
        step (s.setPort (w :: (beats ++ rest))) = step (s.setPort (w' :: (beats' ++ rest)))) ∧
  (∀ i : Instr, commandWord i &&& ~~~ usedBits (opField (commandWord i)) = 0#32 ∧
    ∀ b ∈ dataBeats i, b &&& 0xFFFFFF00#32 = 0#32)

/-- 30_encoding.md R77: the first word alone gives the command's length, and the words up to that length are not decoded
as commands, whatever their bits. -/
def Obligations.FirstWordGivesCommandLength : Prop :=
  ∀ (w : Word) (ws : List Word),
    (commandWords w = if w.extractLsb' 28 4 = 0x1#4 then 1 + (w.extractLsb' 0 16).toNat else 1) ∧
    (commandWords w ≤ ws.length + 1 →
      ∃ i, decode (w :: ws) = .ok (i, (w :: ws).drop (commandWords w))) ∧
    (ws.length + 1 < commandWords w → decode (w :: ws) = .error (.beatsMissing (commandWords w - (ws.length + 1))))

/-- 30_encoding.md R78: the worked encodings. -/
def Obligations.WorkedEncodingsDecode : Prop :=
  decode [0x00000000#32] = .ok (.nop, []) ∧
  decode [0x10000001#32, 0x00000045#32] = .ok (.submit false [0x45#8], []) ∧
  decode [0x18000003#32, 0x00000053#32, 0x0000004F#32, 0x00000053#32] =
    .ok (.submit true [0x53#8, 0x4F#8, 0x53#8], []) ∧
  decode [0x10000000#32] = .ok (.submit false [], []) ∧
  decode [0x2000003C#32] = .ok (.tick 60#28, []) ∧
  decode [0x20000000#32] = .ok (.tick 0#28, []) ∧
  decode [0x2FFFFFFF#32] = .ok (.tick 268435455#28, []) ∧
  decode [0x30000000#32] = .ok (.stop, []) ∧
  decode [0x40000000#32] = .ok (.interrupt, []) ∧
  decode [0x5000003C#32] = .ok (.setdot 60#16, []) ∧
  decode [0x50000000#32] = .ok (.setdot 0#16, []) ∧
  (∀ w : Word, 6 ≤ (w.extractLsb' 28 4).toNat →
    ∃ i, decode [w] = .ok (i, []) ∧
      ((w.extractLsb' 28 4).toNat ≤ 7 ∧ (∃ op, i = .reservedLow op) ∨
        8 ≤ (w.extractLsb' 28 4).toNat ∧ ∃ op, i = .reservedHigh op))

/-- 30_encoding.md R82, R83: what the assembler's lines stand for, and what it rejects. -/
def Obligations.AssemblerLinesAndPseudoInstructions : Prop :=
  (∀ (r : Bool) (text : List Byte), assemble (.submit r text) =
    if text.length ≤ 65535 then
      some ((0x10000000#32 ||| (if r then 0x08000000#32 else 0#32) ||| BitVec.ofNat 32 text.length) ::
        text.map (·.setWidth 32))
    else none) ∧
  (∀ t : Nat, assemble (.tick t) =
    if t ≤ 2 ^ 28 - 1 then some [0x20000000#32 ||| BitVec.ofNat 32 t] else none) ∧
  (∀ d : Nat, assemble (.setdot d) =
    if d ≤ 65535 then some [0x50000000#32 ||| BitVec.ofNat 32 d] else none) ∧
  (∀ w : Nat, assemble (.word w) = if w < 2 ^ 32 then some [BitVec.ofNat 32 w] else none) ∧
  assemble .nop = some [0#32] ∧ assemble .stop = some [0x30000000#32] ∧
  assemble .interrupt = some [0x40000000#32] ∧
  (∀ text : List Byte, assemble (.play text) = assemble (.submit false text) ∧
    assemble (.loop text) = assemble (.submit true text)) ∧
  (∀ n t : Nat, t ≤ 2 ^ 28 - 1 →
    assemble (.wait n t) = some (List.replicate n (0x20000000#32 ||| BitVec.ofNat 32 t)))

/-! ### A step -/

/-- When the words on the command port decode to a command and `rst` is low, a step takes that command's words and
executes it (30_encoding.md R70, 00_scope.md R7).
That the host's words stand in the state is the model's own (log 3). -/
def Obligations.StepRunsDecodedCommand : Prop :=
  ∀ (s : State) (i : Instr) (rest : List Word), s.rst = none → decode s.port = .ok (i, rest) →
    step s = exec i (s.setPort rest)

/-- When the host presents the words of a well-formed command, the next step executes exactly that command
(30_encoding.md R70, R77; log 3). -/
def Obligations.StepRunsPresentedCommand : Prop :=
  ∀ (s : State) (i : Instr) (rest : List Word), i.wf = true → s.rst = none →
    step (s.setPort (encode i ++ rest)) = exec i (s.setPort rest)

/-- With no whole command presented, the block waits and nothing changes: the model's choice (log 4). -/
def Obligations.StepWaitsForWholeCommand : Prop :=
  ∀ s : State, s.rst = none →
    (s.port = [] ∨ ∃ w beats, s.port = w :: beats ∧ w.extractLsb' 28 4 = 0x1#4 ∧
      beats.length < (w.extractLsb' 0 16).toNat) →
    step s = .next s

/-- No command traps or stops the block (60_exceptions.md R184, R188), and every step answers a next state.
The second part is the model's own where the step is no command: with no whole command presented the block waits (log 4),
and with `rst` asserted the step is a reset (log 5). -/
def Obligations.NothingStopsTheBlock : Prop :=
  (∀ (i : Instr) (s : State), ∃ t, exec i s = .next t) ∧ ∀ s : State, ∃ t, step s = .next t

/-! ### Reset -/

/-- 10_state.md R36: the state after reset, for every parameter value and every BUF_INIT. -/
def Obligations.ResetValues : Prop :=
  (∀ (p : Params) (init : BufInit), init.legal p = true →
    let s := State.resetWith p init
    s.buf0.len = 0#32 ∧ s.buf1.len = 0#32 ∧
    (∀ a, a < 4 → s.buf0.read a = 0x00#8 ∧ s.buf1.read a = 0x00#8) ∧
    (∀ a, 4 ≤ a → s.buf0.read a = init.buf0.read a ∧ s.buf1.read a = init.buf1.read a) ∧
    s.liveSel = false ∧ s.elapsed = 0#32 ∧ s.dot = p.dotReset ∧ s.repeatFlag = false ∧ s.repeatNext = false ∧
    s.sig = false ∧ s.sigLevel = false ∧ s.lastDiag = 0#2 ∧ s.busy = false ∧ s.enc = none ∧ s.trace = [] ∧
    s.playState = .idle ∧ s.statusWord = 0#32) ∧
  State.reset.dot = 60#16

/-- 70_reset_and_hazards.md R200 to R202: a step while `rst` is high takes no word and gives the reset state, with no
event.
That the words of an abandoned SUBMIT leave the port, and the others stay, is the model's own (log 5). -/
def Obligations.ResetInputResets : Prop :=
  ∀ (s : State) (init : BufInit), s.rst = some init →
    ∃ t, step s = .next t ∧
      t = (State.resetWith s.cfg init).setPort t.port ∧ t.trace = [] ∧ t.sig = false ∧ t.rst = none ∧
      (∀ i rest, decode s.port = .ok (i, rest) → t.port = s.port) ∧
      (∀ n, decode s.port = .error (.beatsMissing n) → t.port = [])

/-- The reset state meets the invariant, for every legal parameter value and every BUF_INIT (10_state.md R36, R39). -/
def Obligations.ResetMeetsInvariant : Prop :=
  State.reset.Inv ∧
  ∀ (p : Params) (init : BufInit), p.legal = true → init.legal p = true → (State.resetWith p init).Inv

/-- Every step keeps the invariant: R39 items 1 to 3, the canonical form and extent of both buffers, the bound on ELAPSED
(41_playback.md R148), REPEAT = 0 in PENDING (R155 item 5), and no Encoder registers between commands (10_state.md R28). -/
def Obligations.StepKeepsInvariant : Prop :=
  ∀ s t : State, s.Inv → step s = .next t → t.Inv

/-- 10_state.md R39 item 4: outside a SUBMIT in progress STATUS.BUSY is 0; a SUBMIT is in progress exactly while its
data beats are awaited (log 4). -/
def Obligations.BusyOnlyDuringSubmit : Prop :=
  ∀ s : State, s.Inv →
    (s.statusWord.getLsbD 8 = true ↔
      ∃ w beats, s.port = w :: beats ∧ w.extractLsb' 28 4 = 0x1#4 ∧ beats.length < (w.extractLsb' 0 16).toNat)

/-! ### Buffers -/

/-- 20_memory.md R52: the header is the encoded length, most significant byte at the lowest address. -/
def Obligations.HeaderIsBigEndian : Prop :=
  (∀ m : Memory, m.len.toNat =
    (m.read 0).toNat * 2 ^ 24 + (m.read 1).toNat * 2 ^ 16 + (m.read 2).toNat * 2 ^ 8 + (m.read 3).toNat) ∧
  ∀ (m : Memory) (v : Word), m.wf = true →
    (m.setLen v).read 0 = v.extractLsb' 24 8 ∧ (m.setLen v).read 1 = v.extractLsb' 16 8 ∧
    (m.setLen v).read 2 = v.extractLsb' 8 8 ∧ (m.setLen v).read 3 = v.extractLsb' 0 8 ∧
    ∀ a, 4 ≤ a → (m.setLen v).read a = m.read a

/-- 40_encoder.md R112, 20_memory.md R53: the bit reader's value, independent of the header, and 0 at or past BITCAP. -/
def Obligations.BitReaderReadsContentBit : Prop :=
  ∀ (p : Params) (m : Memory) (i : Word),
    (i.toNat < 8 * (p.cap - 4) → readBit p m i = (m.read (4 + i.toNat / 8)).getLsbD (i.toNat % 8)) ∧
    (8 * (p.cap - 4) ≤ i.toNat → readBit p m i = false) ∧
    (m.wf = true → ∀ v : Word, readBit p (m.setLen v) i = readBit p m i)

/-- 40_encoder.md R110: AppendRun fails, writing nothing, exactly when the run would pass BITCAP; else it leaves these
content bits, and no byte outside 4 + i/8 .. 4 + (i+n-1)/8 changes. -/
def Obligations.AppendRunWritesTheRun : Prop :=
  ∀ (p : Params) (m : Memory) (i : Word) (v : Bool) (n : Nat), m.wf = true → 1 ≤ n → n ≤ 4 →
    (p.bitcap < i.toNat + n → appendRun p m i v n = none) ∧
    (i.toNat + n ≤ p.bitcap → ∃ m', appendRun p m i v n = some m' ∧ m'.wf = true ∧
      (∀ j, m'.contentBit j =
        if i.toNat ≤ j ∧ j < i.toNat + n then
          if 8 * (j / 8) < i.toNat then m.contentBit j || v else v
        else if i.toNat ≤ 8 * (j / 8) ∧ 8 * (j / 8) < i.toNat + n then false
        else m.contentBit j) ∧
      ∀ a, (a < 4 + i.toNat / 8 ∨ 4 + (i.toNat + n - 1) / 8 < a) → m'.read a = m.read a)

/-! ### The Code Table and SUBMIT -/

/-- 30_encoding.md R79 and R81: upper-casing, and the class of every byte. -/
def Obligations.CharacterClasses : Prop :=
  ∀ (p : Params) (c : Byte),
    let u := if 0x61 ≤ c.toNat ∧ c.toNat ≤ 0x7A then c.toNat - 0x20 else c.toNat
    (u = 0x20 → classOf p c = .space) ∧
    (0x30 ≤ u → u ≤ 0x39 → classOf p c = .symbol (p.lut (u - 0x30))) ∧
    (0x41 ≤ u → u ≤ 0x5A → classOf p c = .symbol (p.lut (u - 0x30))) ∧
    (0x3A ≤ u → u ≤ 0x40 →
      (p.gapChar = .invalid → classOf p c = .invalid) ∧ (p.gapChar = .emptyEntry → classOf p c = .symbol [])) ∧
    (u < 0x20 ∨ (0x20 < u ∧ u < 0x30) ∨ 0x5A < u → classOf p c = .invalid)

/-- 40_encoder.md R101: the LUT's 43 entries for a legal CODE_TABLE: entries 10..16 are empty, the others hold
CODE_TABLE's non-empty strings. -/
def Obligations.LutHoldsTheCodeTable : Prop :=
  ∀ p : Params, p.legal = true →
    (∀ k, k < 10 → p.codeTable[k]? = some (p.lut k) ∧ p.lut k ≠ []) ∧
    (∀ k, 10 ≤ k → k ≤ 16 → p.lut k = []) ∧
    (∀ k, 17 ≤ k → k ≤ 42 → p.codeTable[k - 7]? = some (p.lut k) ∧ p.lut k ≠ [])

/-- 40_encoder.md R103: the unit cost of each class; it is the length of the unit pattern (R105) and of the character's runs,
and the number of content bits the Encoder appends for a character that fits: PTR advances by it, with no error. -/
def Obligations.UnitCostPerClass : Prop :=
  classCost .space = 4 ∧
  (∀ s : List Symbol, classCost (.symbol s) = 2 + 2 * s.count .dot + 4 * s.count .dash) ∧
  classCost (.symbol []) = 2 ∧
  (∀ c : CharClass, (classUnits c).length = classCost c) ∧
  (∀ (p : Params) (c : Byte), (runUnits (charRuns p c)).length = charCost p c) ∧
  ∀ (p : Params) (x : Encoding) (c : Byte), p.legal = true → x.regs.fail = none → classOf p c ≠ .invalid →
    x.regs.ptr.toNat + charCost p c ≤ p.bitcap →
    (x.char p c).regs.ptr.toNat = x.regs.ptr.toNat + charCost p c ∧ (x.char p c).regs.fail = none

/-- 40_encoder.md R104: 3 off units before a character's first on unit, 1 between its symbols, none after its last;
7 off units across one space. -/
def Obligations.CanonicalGaps : Prop :=
  (∀ (s s' : List Symbol) (y y' : Symbol),
    (∃ before after, classUnits (.symbol (s ++ y :: y' :: s')) =
      before ++ [true, false, true] ++ after ∧ before.length = classCost (.symbol (s ++ [y])) - 1) ∧
    ∃ body, classUnits (.symbol (y :: s)) = false :: false :: false :: true :: body ∧
      (classUnits (.symbol (y :: s))).getLast? = some true) ∧
  ∀ (s : List Symbol) (y : Symbol), ∃ body,
    classUnits .space ++ classUnits (.symbol (y :: s)) = List.replicate 7 false ++ true :: body

/-- 40_encoder.md R128 and 41_playback.md R142 to R144: SUBMIT's result for every text: success exactly when no character
is INVALID and the total cost with the trailer fits, then Len is that total, LAST_DIAG is 0 and there is no event; else
the error of R128, Len 0, and its diagnostic; the flags are written in every case. -/
def Obligations.SubmitResult : Prop :=
  ∀ (s : State) (r : Bool) (text : List Byte), s.cfg.legal = true → s.next.wf = true →
    ∃ t, exec (.submit r text) s = .next t ∧ t.repeatNext = r ∧ t.repeatFlag = false ∧
      ((∀ c ∈ text, classOf s.cfg c ≠ .invalid) → textCost s.cfg text + 12 ≤ s.cfg.bitcap →
        t.next.len.toNat = textCost s.cfg text + 12 ∧ t.lastDiag = 0#2 ∧ t.trace = s.trace) ∧
      ((∀ c ∈ text, classOf s.cfg c ≠ .invalid) → s.cfg.bitcap < textCost s.cfg text + 12 →
        t.next.len = 0#32 ∧ t.lastDiag = 2#2 ∧ t.trace = s.trace ++ [.diag .encodingOverflow]) ∧
      (∀ (before after : List Byte) (c : Byte), text = before ++ c :: after →
        (∀ b ∈ before, classOf s.cfg b ≠ .invalid) → classOf s.cfg c = .invalid →
        t.next.len = 0#32 ∧
        (textCost s.cfg before ≤ s.cfg.bitcap →
          t.lastDiag = 1#2 ∧ t.trace = s.trace ++ [.diag .invalidCharacter]) ∧
        (s.cfg.bitcap < textCost s.cfg before →
          t.lastDiag = 2#2 ∧ t.trace = s.trace ++ [.diag .encodingOverflow]))

/-- 40_encoder.md R105, R113 and R129, success: after a SUBMIT that succeeds, NEXT's content bits are the message's units
in order, zeros fill the last touched byte, and every byte after it is as before. -/
def Obligations.SubmitWritesTheMessage : Prop :=
  ∀ (s : State) (r : Bool) (text : List Byte), s.cfg.legal = true → s.next.wf = true →
    (∀ c ∈ text, classOf s.cfg c ≠ .invalid) → textCost s.cfg text + 12 ≤ s.cfg.bitcap →
    ∃ t, exec (.submit r text) s = .next t ∧
      t.next.len.toNat = (messageUnits s.cfg text).length ∧
      (∀ k, (h : k < (messageUnits s.cfg text).length) → t.next.contentBit k = (messageUnits s.cfg text)[k]) ∧
      (∀ k, (messageUnits s.cfg text).length ≤ k → k < 8 * (((messageUnits s.cfg text).length + 7) / 8) →
        t.next.contentBit k = false) ∧
      ∀ a, 4 + ((messageUnits s.cfg text).length + 7) / 8 ≤ a → t.next.read a = s.next.read a

/-- 40_encoder.md R113 and R129, failure: after a SUBMIT that fails, the header is 0, NEXT's content begins with the units
of the runs that fitted before the failure, and the later bytes are as before. -/
def Obligations.FailedSubmitKeepsStaleContent : Prop :=
  ∀ (s : State) (r : Bool) (text : List Byte), s.cfg.legal = true → s.next.wf = true →
    expectedResult s.cfg text ≠ none →
    ∃ t, exec (.submit r text) s = .next t ∧ t.next.len = 0#32 ∧
      (∀ k, (h : k < (writtenUnits s.cfg text).length) → t.next.contentBit k = (writtenUnits s.cfg text)[k]) ∧
      (∀ k, (writtenUnits s.cfg text).length ≤ k → k < 8 * (((writtenUnits s.cfg text).length + 7) / 8) →
        t.next.contentBit k = false) ∧
      ∀ a, 4 + ((writtenUnits s.cfg text).length + 7) / 8 ≤ a → t.next.read a = s.next.read a

/-- 41_playback.md R142 and 10_state.md R37: SUBMIT's frame: LIVE, LIVE_SEL, ELAPSED, DOT, SIG, the parameters and the
inputs are unchanged, and so is every byte of NEXT beyond the last one the encode touched. -/
def Obligations.SubmitFrame : Prop :=
  ∀ (s : State) (r : Bool) (text : List Byte), s.cfg.legal = true → s.next.wf = true →
    ∃ t, exec (.submit r text) s = .next t ∧
      t.live = s.live ∧ t.liveSel = s.liveSel ∧ t.elapsed = s.elapsed ∧ t.dot = s.dot ∧ t.sig = s.sig ∧
      t.cfg = s.cfg ∧ t.port = s.port ∧ t.rst = s.rst ∧ t.enc = none ∧ t.repeatNext = r ∧ t.repeatFlag = false ∧
      ∀ a, 4 + ((writtenUnits s.cfg text).length + 7) / 8 ≤ a → t.next.read a = s.next.read a

/-- 30_encoding.md R79: encoding is case-insensitive. -/
def Obligations.SubmitIsCaseInsensitive : Prop :=
  ∀ (s : State) (r : Bool) (text : List Byte),
    exec (.submit r (text.map fun c => if 0x61 ≤ c.toNat ∧ c.toNat ≤ 0x7A then c - 0x20#8 else c)) s =
      exec (.submit r text) s

/-- 40_encoder.md R130 and 41_playback.md R145 item 1: what NEXT held before has no effect on a SUBMIT's result: the same
Len, the same diagnostic, and the same content up to Len. -/
def Obligations.SubmitIgnoresOldNext : Prop :=
  ∀ (s : State) (r : Bool) (text : List Byte) (m m' : Memory), s.cfg.legal = true → m.wf = true → m'.wf = true →
    ∃ t t', exec (.submit r text) (s.setNext m) = .next t ∧ exec (.submit r text) (s.setNext m') = .next t' ∧
      t.next.len = t'.next.len ∧ t.lastDiag = t'.lastDiag ∧ t.trace = t'.trace ∧
      t.playState = t'.playState ∧
      ∀ k, k < t.next.len.toNat → t.next.contentBit k = t'.next.contentBit k

/-! ### TICK -/

/-- 41_playback.md R147: with both buffers empty a TICK writes nothing and emits nothing. -/
def Obligations.TickOnEmptyBuffersDoesNothing : Prop :=
  ∀ (s : State) (t : BitVec 28), s.live.len = 0#32 → s.next.len = 0#32 → exec (.tick t) s = .next s

/-- 41_playback.md R148, R149, R154 and 10_state.md R33: a TICK before the boundary accumulates modulo 2^32 and emits the
live bit at ELAPSED / DOT; nothing else changes. -/
def Obligations.TickBeforeBoundary : Prop :=
  ∀ (s : State) (t : BitVec 28), s.dot ≠ 0#16 → tickQuotient s t < s.live.len.toNat →
    let x := readBit s.cfg s.live (BitVec.ofNat 32 (tickQuotient s t))
    exec (.tick t) s =
      .next { s with elapsed := BitVec.ofNat 32 (tickElapsed s t), sig := x, trace := s.trace ++ [.sig x] }

/-- 41_playback.md R150, R151, R153, R154: a boundary TICK with REPEAT = 1 sets ELAPSED to 0 and emits; LIVE_SEL, the flags,
both buffers and everything else are unchanged. -/
def Obligations.TickReplays : Prop :=
  ∀ (s : State) (t : BitVec 28), s.dot ≠ 0#16 → ¬ (s.live.len = 0#32 ∧ s.next.len = 0#32) →
    s.live.len.toNat ≤ tickQuotient s t → s.repeatFlag = true →
    let idx := match s.cfg.swapRead with
      | .quirk => tickQuotient s t
      | .fixed => 0
    let x := readBit s.cfg s.live (BitVec.ofNat 32 idx)
    exec (.tick t) s = .next { s with elapsed := 0#32, sig := x, trace := s.trace ++ [.sig x] }

/-- 41_playback.md R150, R152, R153, R154: a boundary TICK with REPEAT = 0 swaps: the queued buffer becomes live, the flags
move, the header of the buffer that was live is zeroed and its content kept, ELAPSED is 0, and the bit is read from the
buffer now live. -/
def Obligations.TickSwaps : Prop :=
  ∀ (s : State) (t : BitVec 28), s.dot ≠ 0#16 → s.live.wf = true → ¬ (s.live.len = 0#32 ∧ s.next.len = 0#32) →
    s.live.len.toNat ≤ tickQuotient s t → s.repeatFlag = false →
    let idx := match s.cfg.swapRead with
      | .quirk => tickQuotient s t
      | .fixed => 0
    let x := readBit s.cfg s.next (BitVec.ofNat 32 idx)
    ∃ u, exec (.tick t) s = .next u ∧
      u.liveSel = !s.liveSel ∧ u.repeatFlag = s.repeatNext ∧ u.repeatNext = false ∧ u.elapsed = 0#32 ∧
      u.live = s.next ∧ u.next.len = 0#32 ∧ (∀ a, 4 ≤ a → u.next.read a = s.live.read a) ∧
      u.sig = x ∧ u.trace = s.trace ++ [.sig x] ∧
      u.dot = s.dot ∧ u.lastDiag = s.lastDiag ∧ u.cfg = s.cfg ∧ u.enc = s.enc ∧ u.port = s.port ∧ u.rst = s.rst ∧
      (s.next.len = 0#32 → u.playState = .idle)

/-- 41_playback.md R154 and 10_state.md R33: every TICK with a non-empty buffer invokes the sink exactly once, and SIG is the
value it delivered. -/
def Obligations.TickEmitsExactlyOnce : Prop :=
  ∀ (s : State) (t : BitVec 28), ¬ (s.live.len = 0#32 ∧ s.next.len = 0#32) →
    ∃ u, exec (.tick t) s = .next u ∧ u.trace = s.trace ++ [.sig u.sig] ∧ sigStrobes s u = [u.sigLevel] ∧
      diagPulses s u = []

/-- 41_playback.md R153: away from a boundary the two SWAP_READ_POLICY values are identical. -/
def Obligations.PoliciesAgreeOffBoundary : Prop :=
  ∀ (s : State) (t : BitVec 28) (pol : SwapReadPolicy), s.dot ≠ 0#16 → tickQuotient s t < s.live.len.toNat →
    ∃ u, exec (.tick t) s = .next u ∧
      exec (.tick t) { s with cfg := { s.cfg with swapRead := pol } } =
        .next { u with cfg := { u.cfg with swapRead := pol } }

/-- 41_playback.md R155 item 4: an index at or past BITCAP, at a boundary under QUIRK, emits 0. -/
def Obligations.ReadPastCapacityEmitsZero : Prop :=
  ∀ (s : State) (t : BitVec 28), s.Inv → s.playState ≠ .idle → s.cfg.swapRead = .quirk →
    s.cfg.bitcap ≤ tickQuotient s t → ∃ u, exec (.tick t) s = .next u ∧ u.sig = false

/-- 41_playback.md R155 items 1 and 5: a TICK in PENDING swaps, whatever its T, TICK 0 included. -/
def Obligations.TickInPendingSwaps : Prop :=
  ∀ (s : State) (t : BitVec 28), s.Inv → s.playState = .pending →
    ∃ u, exec (.tick t) s = .next u ∧ u.liveSel = !s.liveSel ∧ u.live = s.next ∧ u.elapsed = 0#32 ∧
      u.trace = s.trace ++ [.sig u.sig]

/-! ### NOP, STOP, INTERRUPT, SETDOT and the reserved words -/

/-- 41_playback.md R141: NOP, OP 0x0, changes nothing and emits nothing. -/
def Obligations.NopChangesNothing : Prop :=
  opField (commandWord .nop) = 0x0#4 ∧ ∀ s : State, exec .nop s = .next s

/-- 41_playback.md R156: STOP, OP 0x3, writes REPEAT <- 0 and nothing else; REPEATING becomes PLAYING, and the other playback
states stay. -/
def Obligations.StopClearsRepeat : Prop :=
  opField (commandWord .stop) = 0x3#4 ∧
  ∀ s : State,
    let t := { s with repeatFlag := false }
    exec .stop s = .next t ∧ (s.playState = .repeating → t.playState = .playing) ∧
      (s.playState ≠ .repeating → t.playState = s.playState)

/-- 41_playback.md R157 and R158: INTERRUPT, OP 0x4, zeroes LIVE's header and REPEAT; its content, NEXT, REPEAT_NEXT, ELAPSED, SIG and
everything else are unchanged, and nothing is emitted. -/
def Obligations.InterruptEmptiesLive : Prop :=
  opField (commandWord .interrupt) = 0x4#4 ∧
  ∀ s : State, s.live.wf = true →
    ∃ t, exec .interrupt s = .next t ∧ t.live.len = 0#32 ∧ (∀ a, 4 ≤ a → t.live.read a = s.live.read a) ∧
      t.repeatFlag = false ∧ t.next = s.next ∧ t.liveSel = s.liveSel ∧ t.elapsed = s.elapsed ∧ t.dot = s.dot ∧
      t.repeatNext = s.repeatNext ∧ t.sig = s.sig ∧ t.lastDiag = s.lastDiag ∧ t.trace = s.trace ∧
      t.cfg = s.cfg ∧ t.enc = s.enc ∧ t.port = s.port ∧ t.rst = s.rst

/-- 41_playback.md R160: SETDOT, OP 0x5 with D in bits 15:0, writes DOT <- D for D ≠ 0, leaves it for D = 0, and changes
nothing else. -/
def Obligations.SetdotWritesLegalValuesOnly : Prop :=
  (∀ (w : Word) (rest : List Word), opField w = 0x5#4 →
    decode (w :: rest) = .ok (.setdot (w.extractLsb' 0 16), rest)) ∧
  ∀ (s : State) (d : BitVec 16),
    (d ≠ 0#16 → exec (.setdot d) s = .next { s with dot := d }) ∧ (d = 0#16 → exec (.setdot d) s = .next s)

/-- 41_playback.md R165 and 60_exceptions.md R183: a reserved word, OP 0x6..0xF, is one word long whatever its
low bits, sets LAST_DIAG to 3 and emits DIAG(3), and does nothing else. -/
def Obligations.ReservedWordsReportIllegalCommand : Prop :=
  (∀ (w : Word) (rest : List Word), 6 ≤ (opField w).toNat → commandWords w = 1 ∧
    ((∃ op, decode (w :: rest) = .ok (.reservedLow op, rest)) ∨
      ∃ op, decode (w :: rest) = .ok (.reservedHigh op, rest))) ∧
  ∀ s : State,
    let t := { s with lastDiag := 3#2, trace := s.trace ++ [.diag .illegalCommand] }
    (∀ op : BitVec 1, exec (.reservedLow op) s = .next t) ∧ (∀ op : BitVec 3, exec (.reservedHigh op) s = .next t) ∧
      diagPulses s t = [3#2] ∧ sigStrobes s t = []

/-! ### Whole-machine rules -/

/-- 10_state.md R37: which command may write which state.
The parameters and the inputs are written by none. -/
def Obligations.WriteMatrix : Prop :=
  ∀ (i : Instr) (s t : State), s.buf0.wf = true → s.buf1.wf = true → exec i s = .next t →
    ((∃ a, (t.buf (!s.liveSel)).read a ≠ s.next.read a) → ∃ r text, i = .submit r text) ∧
    ((∃ a, (t.buf s.liveSel).read a ≠ s.live.read a) → (∃ d, i = .tick d) ∨ i = .interrupt) ∧
    (∀ a, 4 ≤ a → (t.buf s.liveSel).read a = s.live.read a) ∧
    (t.liveSel ≠ s.liveSel → ∃ d, i = .tick d) ∧
    (t.elapsed ≠ s.elapsed → ∃ d, i = .tick d) ∧
    (t.dot ≠ s.dot → ∃ d, i = .setdot d) ∧
    (t.repeatFlag ≠ s.repeatFlag →
      (∃ r text, i = .submit r text) ∨ (∃ d, i = .tick d) ∨ i = .stop ∨ i = .interrupt) ∧
    (t.repeatNext ≠ s.repeatNext → (∃ r text, i = .submit r text) ∨ ∃ d, i = .tick d) ∧
    (t.sig ≠ s.sig → ∃ d, i = .tick d) ∧
    (t.lastDiag ≠ s.lastDiag →
      (∃ r text, i = .submit r text) ∨ (∃ op, i = .reservedLow op) ∨ ∃ op, i = .reservedHigh op) ∧
    t.cfg = s.cfg ∧ t.port = s.port ∧ t.rst = s.rst

/-- 10_state.md R34 and 60_exceptions.md R186: a command appends at most one event; a SIG event is a TICK's and carries the
new SIG, a DIAG event is a SUBMIT's or a reserved word's and carries the new LAST_DIAG. -/
def Obligations.AtMostOneEventPerCommand : Prop :=
  ∀ (i : Instr) (s t : State), exec i s = .next t →
    t.trace = s.trace ∨
    (t.trace = s.trace ++ [.sig t.sig] ∧ ∃ d, i = .tick d) ∨
    ∃ e : Error, t.trace = s.trace ++ [.diag e] ∧ t.lastDiag = e.code ∧
      ((∃ r text, i = .submit r text) ∨ (∃ op, i = .reservedLow op) ∨ ∃ op, i = .reservedHigh op)

/-- 41_playback.md R171: the transition table, every command in every playback state, with what it emits. -/
def Obligations.PlaybackTransitionTable : Prop :=
  ∀ (s : State) (i : Instr), s.Inv →
    ∃ t, exec i s = .next t ∧ t.playState = (transitionRow s i).1 ∧
      t.trace = emittedTrace s t (transitionRow s i).2

/-- 10_state.md R29: the derived playback state. -/
def Obligations.PlaybackStateFromLengths : Prop :=
  ∀ s : State,
    (s.live.len = 0#32 → s.next.len = 0#32 → s.playState = .idle) ∧
    (s.live.len = 0#32 → s.next.len ≠ 0#32 → s.playState = .pending) ∧
    (s.live.len ≠ 0#32 → s.repeatFlag = false → s.playState = .playing) ∧
    (s.live.len ≠ 0#32 → s.repeatFlag = true → s.playState = .repeating)

/-- 10_state.md R30: the fields of STATUS; the reserved bits are 0. -/
def Obligations.StatusWordFields : Prop :=
  ∀ s : State,
    s.statusWord.getLsbD 0 = s.sig ∧ s.statusWord.getLsbD 1 = s.liveSel ∧ s.statusWord.getLsbD 2 = s.repeatFlag ∧
    s.statusWord.getLsbD 3 = s.repeatNext ∧
    (s.statusWord.extractLsb' 4 2 = match s.playState with
      | .idle => 0#2
      | .pending => 1#2
      | .playing => 2#2
      | .repeating => 3#2) ∧
    s.statusWord.extractLsb' 6 2 = s.lastDiag ∧ s.statusWord.getLsbD 8 = s.busy ∧
    s.statusWord.extractLsb' 9 23 = 0#23

/-- 41_playback.md R145 items 3 and 5, 70_reset_and_hazards.md R210 and R212: a SUBMIT that fails still ends a repetition: from
REPEATING the live message plays on, ELAPSED untouched, and its boundary TICK swaps to an empty buffer: IDLE, with REPEAT
equal to the failed command's R. -/
def Obligations.FailedSubmitEndsRepetition : Prop :=
  ∀ (s : State) (r : Bool) (text : List Byte) (d : BitVec 28), s.Inv → s.playState = .repeating →
    expectedResult s.cfg text ≠ none →
    ∃ t, exec (.submit r text) s = .next t ∧ t.playState = .playing ∧ t.live = s.live ∧ t.elapsed = s.elapsed ∧
      (t.live.len.toNat ≤ tickQuotient t d →
        ∃ u, exec (.tick d) t = .next u ∧ u.playState = .idle ∧ u.repeatFlag = r)

/-- 70_reset_and_hazards.md R208 and 41_playback.md R157, R147: after an INTERRUPT with nothing queued, every TICK leaves the
block as it is: SIG keeps the last emitted value and nothing is emitted. -/
def Obligations.InterruptThenTickIsSilent : Prop :=
  ∀ (s : State) (d : BitVec 28), s.live.wf = true → s.next.len = 0#32 →
    ∃ t, exec .interrupt s = .next t ∧ exec (.tick d) t = .next t ∧ t.sig = s.sig ∧ t.trace = s.trace
end

