-- ==== Sys2Proof/Laws/Decode.lean ====
section
/-! SUPPORT. The fields of encoded words, and what the decoder answers. -/

namespace Sys2Proof

/-! ### Fields of the encoded words -/

/-- The low part of two joined fields, and the high part. -/
theorem extractLsb'_append_low {m n : Nat} (a : BitVec m) (b : BitVec n) : (a ++ b).extractLsb' 0 n = b := by
  ext i hi
  simp [BitVec.getLsbD_append, hi]

theorem extractLsb'_append_high {m n : Nat} (a : BitVec m) (b : BitVec n) : (a ++ b).extractLsb' n m = a := by
  ext i hi
  simp [BitVec.getLsbD_append, BitVec.getLsbD_eq_getElem hi]

@[simp] theorem opField_submit (r : Bool) (text : List Byte) : opField (commandWord (.submit r text)) = 0x1#4 := by
  ext i hi
  simp only [opField, commandWord, BitVec.getElem_extractLsb', BitVec.getLsbD_append]
  rw [if_neg (by omega), if_neg (by omega), if_neg (by omega)]
  simp [BitVec.getLsbD_eq_getElem hi, show 28 + i - 16 - 11 - 1 = i by omega]

@[simp] theorem opField_tick (t : BitVec 28) : opField (commandWord (.tick t)) = 0x2#4 :=
  extractLsb'_append_high 0x2#4 t

@[simp] theorem opField_setdot (d : BitVec 16) : opField (commandWord (.setdot d)) = 0x5#4 := by
  ext i hi
  simp only [opField, commandWord, BitVec.getElem_extractLsb', BitVec.getLsbD_append]
  rw [if_neg (by omega), if_neg (by omega)]
  simp [BitVec.getLsbD_eq_getElem hi, show 28 + i - 16 - 12 = i by omega]

@[simp] theorem repeatField_submit (r : Bool) (text : List Byte) :
    repeatField (commandWord (.submit r text)) = r := by
  simp only [repeatField, commandWord, BitVec.getLsbD_append]
  simp

@[simp] theorem lengthField_submit (r : Bool) (text : List Byte) :
    lengthField (commandWord (.submit r text)) = text.length % 65536 := by
  rw [lengthField, commandWord]
  rw [extractLsb'_append_low (0x1#4 ++ BitVec.ofBool r ++ 0#11) (BitVec.ofNat 16 text.length)]
  simp

@[simp] theorem timeField_tick (t : BitVec 28) : timeField (commandWord (.tick t)) = t :=
  extractLsb'_append_low 0x2#4 t

@[simp] theorem dotField_setdot (d : BitVec 16) : dotField (commandWord (.setdot d)) = d :=
  extractLsb'_append_low (0x5#4 ++ 0#12) d

/-- A data beat carries its character (30_encoding.md R73). -/
@[simp] theorem beatChar_setWidth (c : Byte) : beatChar (c.setWidth 32) = c := by
  ext i hi
  simp only [beatChar, BitVec.getElem_extractLsb', BitVec.getLsbD_setWidth, Nat.zero_add]
  rw [BitVec.getLsbD_eq_getElem hi]
  simp
  omega

/-! ### What the decoder answers -/

/-- A command is one word, or for SUBMIT one and its length (30_encoding.md R77). -/
theorem commandWords_pos (w : Word) : 1 ≤ commandWords w := by
  unfold commandWords
  split <;> omega

/-- The decoder's two answers for a first word and what follows it. -/
theorem decode_cons (w : Word) (ws : List Word) :
    decode (w :: ws) =
      if ws.length < beatCount w then .error (.beatsMissing (beatCount w - ws.length))
      else .ok (commandOf w ((ws.take (beatCount w)).map beatChar), ws.drop (beatCount w)) := rfl

/-- A first word with exactly its beats before the rest decodes. -/
theorem decode_append {w : Word} {beats rest : List Word} (h : beats.length = beatCount w) :
    decode (w :: (beats ++ rest)) = .ok (commandOf w (beats.map beatChar), rest) := by
  rw [decode_cons, if_neg (by simp [← h]), ← h]
  simp

/-- What a successful decode says of the words. -/
theorem decode_ok {ws rest : List Word} {i : Instr} (h : decode ws = .ok (i, rest)) :
    ∃ w beats, ws = w :: (beats ++ rest) ∧ beats.length = beatCount w ∧ i = commandOf w (beats.map beatChar) := by
  cases ws with
  | nil => cases h
  | cons w ws =>
    rw [decode_cons] at h
    split at h
    · cases h
    · simp only [Except.ok.injEq, Prod.mk.injEq] at h
      refine ⟨w, ws.take (beatCount w), ?_, ?_, h.1.symm⟩
      · rw [← h.2, List.take_append_drop]
      · simp
        omega

/-- The decoder's error: no word, or data beats that are not all there. -/
theorem decode_error {ws : List Word} {e : DecodeError} (h : decode ws = .error e) :
    (ws = [] ∧ e = .noWord) ∨
      ∃ w beats, ws = w :: beats ∧ beats.length < beatCount w ∧ e = .beatsMissing (beatCount w - beats.length) := by
  cases ws with
  | nil =>
    simp only [decode, Except.error.injEq] at h
    exact .inl ⟨rfl, h.symm⟩
  | cons w beats =>
    rw [decode_cons] at h
    split at h
    · simp only [Except.error.injEq] at h
      exact .inr ⟨w, beats, rfl, ‹_›, h.symm⟩
    · cases h

end Sys2Proof
end

