-- ==== Sys2Proof/Laws/Memory.lean ====
section
/-! SUPPORT. The laws of a buffer's bytes: canonical form, read after write, the length header, content bits. -/

namespace Sys2Proof.Machine

/-! ### Canonical form -/

theorem Memory.wfFrom_cons {lo a : Nat} {v : Byte} {m : Memory} :
    Memory.wfFrom lo ((a, v) :: m) = true ↔ lo ≤ a ∧ v ≠ Memory.unlisted ∧ Memory.wfFrom (a + 1) m = true := by
  simp [Memory.wfFrom, and_assoc]

theorem Memory.wfFrom_mono {lo lo' : Nat} {m : Memory} (hle : lo' ≤ lo) (h : Memory.wfFrom lo m = true) :
    Memory.wfFrom lo' m = true := by
  cases m with
  | nil => rfl
  | cons c m =>
    obtain ⟨a, v⟩ := c
    rw [Memory.wfFrom_cons] at h ⊢
    exact ⟨by omega, h.2⟩

/-- Below the first listed address everything is unlisted. -/
theorem Memory.read_of_lt {lo a : Nat} {m : Memory} (h : Memory.wfFrom lo m = true) (ha : a < lo) :
    m.read a = Memory.unlisted := by
  induction m generalizing lo with
  | nil => rfl
  | cons c m ih =>
    obtain ⟨b, v⟩ := c
    rw [Memory.wfFrom_cons] at h
    rw [Memory.read, if_neg (by omega)]
    exact ih h.2.2 (by omega)

/-- Every write keeps the canonical form. -/
theorem Memory.wfFrom_write {lo a : Nat} {v : Byte} {m : Memory} (h : Memory.wfFrom lo m = true) (ha : lo ≤ a) :
    Memory.wfFrom lo (Memory.write m a v) = true := by
  induction m generalizing lo with
  | nil =>
    rw [Memory.write]
    split
    · rfl
    · exact Memory.wfFrom_cons.2 ⟨ha, ‹_›, rfl⟩
  | cons c m ih =>
    obtain ⟨b, w⟩ := c
    have hc := Memory.wfFrom_cons.1 h
    simp only [Memory.write]
    split_ifs with h1 h2 h3 h4
    · exact h
    · exact Memory.wfFrom_cons.2 ⟨ha, h2, Memory.wfFrom_cons.2 ⟨by omega, hc.2⟩⟩
    · exact Memory.wfFrom_mono (by omega) hc.2.2
    · exact Memory.wfFrom_cons.2 ⟨ha, h4, h3 ▸ hc.2.2⟩
    · exact Memory.wfFrom_cons.2 ⟨hc.1, hc.2.1, ih hc.2.2 (by omega)⟩

theorem Memory.wf_write {a : Nat} {v : Byte} {m : Memory} (h : m.wf = true) : (Memory.write m a v).wf = true :=
  Memory.wfFrom_write h (Nat.zero_le a)

/-- Read after write: the written byte, and every other byte as before. -/
theorem Memory.read_write {m : Memory} (h : m.wf = true) (a : Nat) (v : Byte) (a' : Nat) :
    (Memory.write m a v).read a' = if a' = a then v else m.read a' := by
  suffices ∀ lo, Memory.wfFrom lo m = true →
      (Memory.write m a v).read a' = if a' = a then v else m.read a' from this 0 h
  clear h
  intro lo h
  induction m generalizing lo with
  | nil =>
    simp only [Memory.write, Memory.read]
    split_ifs with h1 h2 h2 <;> simp_all [Memory.read]
  | cons c m ih =>
    obtain ⟨b, w⟩ := c
    have hc := Memory.wfFrom_cons.1 h
    have hih := ih _ hc.2.2
    by_cases hx : a' = a
    · subst hx
      have hread := Memory.read_of_lt (a := a') hc.2.2
      rw [if_pos rfl] at hih ⊢
      simp only [Memory.write]
      split_ifs with h1 h2 h3 h4
      · rw [Memory.read, if_neg (by omega), h2]
        exact hread (by omega)
      · simp [Memory.read]
      · rw [h4]
        exact hread (by omega)
      · simp [Memory.read]
      · rw [Memory.read, if_neg h3, hih]
    · rw [if_neg hx] at hih ⊢
      simp only [Memory.write]
      split_ifs with h1 h2 h3 h4
      · rfl
      · rw [Memory.read, if_neg hx]
      · rw [Memory.read, if_neg (by omega)]
      · rw [Memory.read, if_neg hx, Memory.read, if_neg (by omega)]
      · rw [Memory.read, Memory.read, hih]

theorem Memory.read_write_same {m : Memory} (h : m.wf = true) (a : Nat) (v : Byte) :
    (Memory.write m a v).read a = v := by
  rw [Memory.read_write h, if_pos rfl]

theorem Memory.read_write_other {m : Memory} (h : m.wf = true) {a a' : Nat} (v : Byte) (hne : a' ≠ a) :
    (Memory.write m a v).read a' = m.read a' := by
  rw [Memory.read_write h, if_neg hne]

/-- Equal bytes everywhere make equal data. -/
theorem Memory.ext_read {m m' : Memory} (h : m.wf = true) (h' : m'.wf = true) (heq : ∀ a, m.read a = m'.read a) :
    m = m' := by
  suffices ∀ lo, Memory.wfFrom lo m = true → Memory.wfFrom lo m' = true → m = m' from this 0 h h'
  clear h h'
  intro lo h h'
  induction m generalizing m' lo with
  | nil =>
    cases m' with
    | nil => rfl
    | cons c m' =>
      obtain ⟨b, w⟩ := c
      have := heq b
      rw [Memory.wfFrom_cons] at h'
      simp [Memory.read] at this
      exact absurd this.symm h'.2.1
  | cons c m ih =>
    obtain ⟨a, v⟩ := c
    have hc := Memory.wfFrom_cons.1 h
    cases m' with
    | nil =>
      have := heq a
      simp [Memory.read] at this
      exact absurd this hc.2.1
    | cons c' m' =>
      obtain ⟨b, w⟩ := c'
      have hc' := Memory.wfFrom_cons.1 h'
      have hab : a = b := by
        by_contra hne
        rcases Nat.lt_or_gt_of_ne hne with hlt | hgt
        · have := heq a
          rw [Memory.read, if_pos rfl, Memory.read, if_neg hne, Memory.read_of_lt hc'.2.2 (by omega)] at this
          exact hc.2.1 this
        · have := heq b
          rw [Memory.read, if_neg (fun e => hne e.symm), Memory.read_of_lt hc.2.2 (by omega), Memory.read,
            if_pos rfl] at this
          exact hc'.2.1 this.symm
      subst hab
      have hvw : v = w := by
        have := heq a
        simpa [Memory.read] using this
      subst hvw
      congr 1
      refine ih (fun x => ?_) _ hc.2.2 hc'.2.2
      by_cases hx : x = a
      · rw [hx, Memory.read_of_lt hc.2.2 (by omega), Memory.read_of_lt hc'.2.2 (by omega)]
      · have := heq x
        rwa [Memory.read, if_neg hx, Memory.read, if_neg hx] at this

/-! ### Addresses below CAP -/

theorem Memory.below_write {cap a : Nat} {v : Byte} {m : Memory} (h : m.below cap = true) (ha : a < cap) :
    (Memory.write m a v).below cap = true := by
  induction m with
  | nil =>
    rw [Memory.write]
    split <;> simp [Memory.below, ha]
  | cons c m ih =>
    obtain ⟨b, w⟩ := c
    have hb : b < cap ∧ Memory.below cap m = true := by simpa [Memory.below] using h
    simp only [Memory.write]
    split_ifs
    · exact h
    · simpa [Memory.below, ha] using h
    · exact hb.2
    · simpa [Memory.below, ha] using hb.2
    · simpa [Memory.below] using ⟨hb.1, by simpa [Memory.below] using ih hb.2⟩

/-- An address at or past CAP is never listed: it reads as unlisted. -/
theorem Memory.read_of_below {cap a : Nat} {m : Memory} (h : m.below cap = true) (ha : cap ≤ a) :
    m.read a = Memory.unlisted := by
  induction m with
  | nil => rfl
  | cons c m ih =>
    obtain ⟨b, w⟩ := c
    have hb : b < cap ∧ Memory.below cap m = true := by simpa [Memory.below] using h
    rw [Memory.read, if_neg (by omega)]
    exact ih hb.2

/-! ### The length header -/

theorem Memory.wf_setLen {m : Memory} (h : m.wf = true) (v : Word) : (Memory.setLen m v).wf = true :=
  Memory.wf_write (Memory.wf_write (Memory.wf_write (Memory.wf_write h)))

theorem Memory.below_setLen {cap : Nat} {m : Memory} (h : m.below cap = true) (hcap : 4 ≤ cap) (v : Word) :
    (Memory.setLen m v).below cap = true :=
  Memory.below_write (Memory.below_write (Memory.below_write (Memory.below_write h (by omega)) (by omega)) (by omega))
    (by omega)

/-- The bytes after SetLen: the header is the value, most significant byte first, and every other byte is as before. -/
theorem Memory.read_setLen {m : Memory} (h : m.wf = true) (v : Word) (a : Nat) :
    (Memory.setLen m v).read a =
      if a = 0 then v.extractLsb' 24 8 else if a = 1 then v.extractLsb' 16 8
      else if a = 2 then v.extractLsb' 8 8 else if a = 3 then v.extractLsb' 0 8 else m.read a := by
  have h0 := Memory.wf_write (a := 0) (v := v.extractLsb' 24 8) h
  have h1 := Memory.wf_write (a := 1) (v := v.extractLsb' 16 8) h0
  have h2 := Memory.wf_write (a := 2) (v := v.extractLsb' 8 8) h1
  simp only [Memory.setLen, Memory.read_write h2, Memory.read_write h1, Memory.read_write h0, Memory.read_write h]
  split_ifs <;> first | rfl | omega

/-- SetLen writes no content byte. -/
theorem Memory.read_setLen_content {m : Memory} (h : m.wf = true) (v : Word) {a : Nat} (ha : 4 ≤ a) :
    (Memory.setLen m v).read a = m.read a := by
  rw [Memory.read_setLen h, if_neg (by omega), if_neg (by omega), if_neg (by omega), if_neg (by omega)]

/-- A word is its four bytes, most significant first. -/
theorem Memory.bytes_append (v : Word) :
    v.extractLsb' 24 8 ++ v.extractLsb' 16 8 ++ v.extractLsb' 8 8 ++ v.extractLsb' 0 8 = v := by
  ext i hi
  simp only [BitVec.getElem_append, BitVec.getElem_extractLsb']
  split_ifs <;> (rw [BitVec.getLsbD_eq_getElem (by omega)]; congr 1; omega)

/-- Len after SetLen. -/
theorem Memory.len_setLen {m : Memory} (h : m.wf = true) (v : Word) : (Memory.setLen m v).len = v := by
  simp only [Memory.len, Memory.read_setLen h]
  simp only [Nat.reduceEqDiff, if_true, if_false, one_ne_zero, OfNat.ofNat_ne_zero, OfNat.ofNat_ne_one]
  exact Memory.bytes_append v

/-- Len depends on the header bytes only. -/
theorem Memory.len_congr {m m' : Memory} (h : ∀ a, a < 4 → m.read a = m'.read a) : m.len = m'.len := by
  simp only [Memory.len, h 0 (by omega), h 1 (by omega), h 2 (by omega), h 3 (by omega)]

/-- A buffer with content bytes only has length 0. -/
theorem Memory.len_of_wfFrom {m : Memory} (h : Memory.wfFrom 4 m = true) : m.len = 0#32 := by
  simp [Memory.len, Memory.read_of_lt h, Memory.unlisted]

/-- A content bit depends on the content bytes only. -/
theorem Memory.contentBit_setLen {m : Memory} (h : m.wf = true) (v : Word) (k : Nat) :
    (Memory.setLen m v).contentBit k = m.contentBit k := by
  rw [Memory.contentBit, Memory.contentBit, Memory.read_setLen_content h v (by unfold byteAddr; omega)]

end Sys2Proof.Machine
end

