-- ==== Sys2Proof/Laws/State.lean ====
section
/-! SUPPORT. What each register update does to each field of the state. -/

namespace Sys2Proof.Machine

/-! ### setLiveSel -/

@[simp] theorem State.setLiveSel_cfg (s : State) (x : Bool) : (s.setLiveSel x).cfg = s.cfg := rfl
@[simp] theorem State.setLiveSel_buf0 (s : State) (x : Bool) : (s.setLiveSel x).buf0 = s.buf0 := rfl
@[simp] theorem State.setLiveSel_buf1 (s : State) (x : Bool) : (s.setLiveSel x).buf1 = s.buf1 := rfl
@[simp] theorem State.setLiveSel_liveSel (s : State) (x : Bool) : (s.setLiveSel x).liveSel = x := rfl
@[simp] theorem State.setLiveSel_elapsed (s : State) (x : Bool) : (s.setLiveSel x).elapsed = s.elapsed := rfl
@[simp] theorem State.setLiveSel_dot (s : State) (x : Bool) : (s.setLiveSel x).dot = s.dot := rfl
@[simp] theorem State.setLiveSel_repeatFlag (s : State) (x : Bool) : (s.setLiveSel x).repeatFlag = s.repeatFlag := rfl
@[simp] theorem State.setLiveSel_repeatNext (s : State) (x : Bool) : (s.setLiveSel x).repeatNext = s.repeatNext := rfl
@[simp] theorem State.setLiveSel_sig (s : State) (x : Bool) : (s.setLiveSel x).sig = s.sig := rfl
@[simp] theorem State.setLiveSel_lastDiag (s : State) (x : Bool) : (s.setLiveSel x).lastDiag = s.lastDiag := rfl
@[simp] theorem State.setLiveSel_enc (s : State) (x : Bool) : (s.setLiveSel x).enc = s.enc := rfl
@[simp] theorem State.setLiveSel_trace (s : State) (x : Bool) : (s.setLiveSel x).trace = s.trace := rfl
@[simp] theorem State.setLiveSel_port (s : State) (x : Bool) : (s.setLiveSel x).port = s.port := rfl
@[simp] theorem State.setLiveSel_rst (s : State) (x : Bool) : (s.setLiveSel x).rst = s.rst := rfl
@[simp] theorem State.setLiveSel_buf (s : State) (x : Bool) (k : Bool) : (s.setLiveSel x).buf k = s.buf k := rfl
@[simp] theorem State.setLiveSel_live (s : State) (x : Bool) : (s.setLiveSel x).live = s.buf x := rfl
@[simp] theorem State.setLiveSel_next (s : State) (x : Bool) : (s.setLiveSel x).next = s.buf (!x) := rfl

/-! ### setElapsed -/

@[simp] theorem State.setElapsed_cfg (s : State) (v : Word) : (s.setElapsed v).cfg = s.cfg := rfl
@[simp] theorem State.setElapsed_buf0 (s : State) (v : Word) : (s.setElapsed v).buf0 = s.buf0 := rfl
@[simp] theorem State.setElapsed_buf1 (s : State) (v : Word) : (s.setElapsed v).buf1 = s.buf1 := rfl
@[simp] theorem State.setElapsed_liveSel (s : State) (v : Word) : (s.setElapsed v).liveSel = s.liveSel := rfl
@[simp] theorem State.setElapsed_elapsed (s : State) (v : Word) : (s.setElapsed v).elapsed = v := rfl
@[simp] theorem State.setElapsed_dot (s : State) (v : Word) : (s.setElapsed v).dot = s.dot := rfl
@[simp] theorem State.setElapsed_repeatFlag (s : State) (v : Word) : (s.setElapsed v).repeatFlag = s.repeatFlag := rfl
@[simp] theorem State.setElapsed_repeatNext (s : State) (v : Word) : (s.setElapsed v).repeatNext = s.repeatNext := rfl
@[simp] theorem State.setElapsed_sig (s : State) (v : Word) : (s.setElapsed v).sig = s.sig := rfl
@[simp] theorem State.setElapsed_lastDiag (s : State) (v : Word) : (s.setElapsed v).lastDiag = s.lastDiag := rfl
@[simp] theorem State.setElapsed_enc (s : State) (v : Word) : (s.setElapsed v).enc = s.enc := rfl
@[simp] theorem State.setElapsed_trace (s : State) (v : Word) : (s.setElapsed v).trace = s.trace := rfl
@[simp] theorem State.setElapsed_port (s : State) (v : Word) : (s.setElapsed v).port = s.port := rfl
@[simp] theorem State.setElapsed_rst (s : State) (v : Word) : (s.setElapsed v).rst = s.rst := rfl
@[simp] theorem State.setElapsed_buf (s : State) (v : Word) (k : Bool) : (s.setElapsed v).buf k = s.buf k := rfl
@[simp] theorem State.setElapsed_live (s : State) (v : Word) : (s.setElapsed v).live = s.live := rfl
@[simp] theorem State.setElapsed_next (s : State) (v : Word) : (s.setElapsed v).next = s.next := rfl

/-! ### setDot -/

@[simp] theorem State.setDot_cfg (s : State) (d : BitVec 16) : (s.setDot d).cfg = s.cfg := rfl
@[simp] theorem State.setDot_buf0 (s : State) (d : BitVec 16) : (s.setDot d).buf0 = s.buf0 := rfl
@[simp] theorem State.setDot_buf1 (s : State) (d : BitVec 16) : (s.setDot d).buf1 = s.buf1 := rfl
@[simp] theorem State.setDot_liveSel (s : State) (d : BitVec 16) : (s.setDot d).liveSel = s.liveSel := rfl
@[simp] theorem State.setDot_elapsed (s : State) (d : BitVec 16) : (s.setDot d).elapsed = s.elapsed := rfl
@[simp] theorem State.setDot_dot (s : State) (d : BitVec 16) : (s.setDot d).dot = d := rfl
@[simp] theorem State.setDot_repeatFlag (s : State) (d : BitVec 16) : (s.setDot d).repeatFlag = s.repeatFlag := rfl
@[simp] theorem State.setDot_repeatNext (s : State) (d : BitVec 16) : (s.setDot d).repeatNext = s.repeatNext := rfl
@[simp] theorem State.setDot_sig (s : State) (d : BitVec 16) : (s.setDot d).sig = s.sig := rfl
@[simp] theorem State.setDot_lastDiag (s : State) (d : BitVec 16) : (s.setDot d).lastDiag = s.lastDiag := rfl
@[simp] theorem State.setDot_enc (s : State) (d : BitVec 16) : (s.setDot d).enc = s.enc := rfl
@[simp] theorem State.setDot_trace (s : State) (d : BitVec 16) : (s.setDot d).trace = s.trace := rfl
@[simp] theorem State.setDot_port (s : State) (d : BitVec 16) : (s.setDot d).port = s.port := rfl
@[simp] theorem State.setDot_rst (s : State) (d : BitVec 16) : (s.setDot d).rst = s.rst := rfl
@[simp] theorem State.setDot_buf (s : State) (d : BitVec 16) (k : Bool) : (s.setDot d).buf k = s.buf k := rfl
@[simp] theorem State.setDot_live (s : State) (d : BitVec 16) : (s.setDot d).live = s.live := rfl
@[simp] theorem State.setDot_next (s : State) (d : BitVec 16) : (s.setDot d).next = s.next := rfl

/-! ### setRepeat -/

@[simp] theorem State.setRepeat_cfg (s : State) (x : Bool) : (s.setRepeat x).cfg = s.cfg := rfl
@[simp] theorem State.setRepeat_buf0 (s : State) (x : Bool) : (s.setRepeat x).buf0 = s.buf0 := rfl
@[simp] theorem State.setRepeat_buf1 (s : State) (x : Bool) : (s.setRepeat x).buf1 = s.buf1 := rfl
@[simp] theorem State.setRepeat_liveSel (s : State) (x : Bool) : (s.setRepeat x).liveSel = s.liveSel := rfl
@[simp] theorem State.setRepeat_elapsed (s : State) (x : Bool) : (s.setRepeat x).elapsed = s.elapsed := rfl
@[simp] theorem State.setRepeat_dot (s : State) (x : Bool) : (s.setRepeat x).dot = s.dot := rfl
@[simp] theorem State.setRepeat_repeatFlag (s : State) (x : Bool) : (s.setRepeat x).repeatFlag = x := rfl
@[simp] theorem State.setRepeat_repeatNext (s : State) (x : Bool) : (s.setRepeat x).repeatNext = s.repeatNext := rfl
@[simp] theorem State.setRepeat_sig (s : State) (x : Bool) : (s.setRepeat x).sig = s.sig := rfl
@[simp] theorem State.setRepeat_lastDiag (s : State) (x : Bool) : (s.setRepeat x).lastDiag = s.lastDiag := rfl
@[simp] theorem State.setRepeat_enc (s : State) (x : Bool) : (s.setRepeat x).enc = s.enc := rfl
@[simp] theorem State.setRepeat_trace (s : State) (x : Bool) : (s.setRepeat x).trace = s.trace := rfl
@[simp] theorem State.setRepeat_port (s : State) (x : Bool) : (s.setRepeat x).port = s.port := rfl
@[simp] theorem State.setRepeat_rst (s : State) (x : Bool) : (s.setRepeat x).rst = s.rst := rfl
@[simp] theorem State.setRepeat_buf (s : State) (x : Bool) (k : Bool) : (s.setRepeat x).buf k = s.buf k := rfl
@[simp] theorem State.setRepeat_live (s : State) (x : Bool) : (s.setRepeat x).live = s.live := rfl
@[simp] theorem State.setRepeat_next (s : State) (x : Bool) : (s.setRepeat x).next = s.next := rfl

/-! ### setRepeatNext -/

@[simp] theorem State.setRepeatNext_cfg (s : State) (x : Bool) : (s.setRepeatNext x).cfg = s.cfg := rfl
@[simp] theorem State.setRepeatNext_buf0 (s : State) (x : Bool) : (s.setRepeatNext x).buf0 = s.buf0 := rfl
@[simp] theorem State.setRepeatNext_buf1 (s : State) (x : Bool) : (s.setRepeatNext x).buf1 = s.buf1 := rfl
@[simp] theorem State.setRepeatNext_liveSel (s : State) (x : Bool) : (s.setRepeatNext x).liveSel = s.liveSel := rfl
@[simp] theorem State.setRepeatNext_elapsed (s : State) (x : Bool) : (s.setRepeatNext x).elapsed = s.elapsed := rfl
@[simp] theorem State.setRepeatNext_dot (s : State) (x : Bool) : (s.setRepeatNext x).dot = s.dot := rfl
@[simp] theorem State.setRepeatNext_repeatFlag (s : State) (x : Bool) : (s.setRepeatNext x).repeatFlag = s.repeatFlag := rfl
@[simp] theorem State.setRepeatNext_repeatNext (s : State) (x : Bool) : (s.setRepeatNext x).repeatNext = x := rfl
@[simp] theorem State.setRepeatNext_sig (s : State) (x : Bool) : (s.setRepeatNext x).sig = s.sig := rfl
@[simp] theorem State.setRepeatNext_lastDiag (s : State) (x : Bool) : (s.setRepeatNext x).lastDiag = s.lastDiag := rfl
@[simp] theorem State.setRepeatNext_enc (s : State) (x : Bool) : (s.setRepeatNext x).enc = s.enc := rfl
@[simp] theorem State.setRepeatNext_trace (s : State) (x : Bool) : (s.setRepeatNext x).trace = s.trace := rfl
@[simp] theorem State.setRepeatNext_port (s : State) (x : Bool) : (s.setRepeatNext x).port = s.port := rfl
@[simp] theorem State.setRepeatNext_rst (s : State) (x : Bool) : (s.setRepeatNext x).rst = s.rst := rfl
@[simp] theorem State.setRepeatNext_buf (s : State) (x : Bool) (k : Bool) : (s.setRepeatNext x).buf k = s.buf k := rfl
@[simp] theorem State.setRepeatNext_live (s : State) (x : Bool) : (s.setRepeatNext x).live = s.live := rfl
@[simp] theorem State.setRepeatNext_next (s : State) (x : Bool) : (s.setRepeatNext x).next = s.next := rfl

/-! ### setSig -/

@[simp] theorem State.setSig_cfg (s : State) (x : Bool) : (s.setSig x).cfg = s.cfg := rfl
@[simp] theorem State.setSig_buf0 (s : State) (x : Bool) : (s.setSig x).buf0 = s.buf0 := rfl
@[simp] theorem State.setSig_buf1 (s : State) (x : Bool) : (s.setSig x).buf1 = s.buf1 := rfl
@[simp] theorem State.setSig_liveSel (s : State) (x : Bool) : (s.setSig x).liveSel = s.liveSel := rfl
@[simp] theorem State.setSig_elapsed (s : State) (x : Bool) : (s.setSig x).elapsed = s.elapsed := rfl
@[simp] theorem State.setSig_dot (s : State) (x : Bool) : (s.setSig x).dot = s.dot := rfl
@[simp] theorem State.setSig_repeatFlag (s : State) (x : Bool) : (s.setSig x).repeatFlag = s.repeatFlag := rfl
@[simp] theorem State.setSig_repeatNext (s : State) (x : Bool) : (s.setSig x).repeatNext = s.repeatNext := rfl
@[simp] theorem State.setSig_sig (s : State) (x : Bool) : (s.setSig x).sig = x := rfl
@[simp] theorem State.setSig_lastDiag (s : State) (x : Bool) : (s.setSig x).lastDiag = s.lastDiag := rfl
@[simp] theorem State.setSig_enc (s : State) (x : Bool) : (s.setSig x).enc = s.enc := rfl
@[simp] theorem State.setSig_trace (s : State) (x : Bool) : (s.setSig x).trace = s.trace := rfl
@[simp] theorem State.setSig_port (s : State) (x : Bool) : (s.setSig x).port = s.port := rfl
@[simp] theorem State.setSig_rst (s : State) (x : Bool) : (s.setSig x).rst = s.rst := rfl
@[simp] theorem State.setSig_buf (s : State) (x : Bool) (k : Bool) : (s.setSig x).buf k = s.buf k := rfl
@[simp] theorem State.setSig_live (s : State) (x : Bool) : (s.setSig x).live = s.live := rfl
@[simp] theorem State.setSig_next (s : State) (x : Bool) : (s.setSig x).next = s.next := rfl

/-! ### setLastDiag -/

@[simp] theorem State.setLastDiag_cfg (s : State) (c : BitVec 2) : (s.setLastDiag c).cfg = s.cfg := rfl
@[simp] theorem State.setLastDiag_buf0 (s : State) (c : BitVec 2) : (s.setLastDiag c).buf0 = s.buf0 := rfl
@[simp] theorem State.setLastDiag_buf1 (s : State) (c : BitVec 2) : (s.setLastDiag c).buf1 = s.buf1 := rfl
@[simp] theorem State.setLastDiag_liveSel (s : State) (c : BitVec 2) : (s.setLastDiag c).liveSel = s.liveSel := rfl
@[simp] theorem State.setLastDiag_elapsed (s : State) (c : BitVec 2) : (s.setLastDiag c).elapsed = s.elapsed := rfl
@[simp] theorem State.setLastDiag_dot (s : State) (c : BitVec 2) : (s.setLastDiag c).dot = s.dot := rfl
@[simp] theorem State.setLastDiag_repeatFlag (s : State) (c : BitVec 2) : (s.setLastDiag c).repeatFlag = s.repeatFlag := rfl
@[simp] theorem State.setLastDiag_repeatNext (s : State) (c : BitVec 2) : (s.setLastDiag c).repeatNext = s.repeatNext := rfl
@[simp] theorem State.setLastDiag_sig (s : State) (c : BitVec 2) : (s.setLastDiag c).sig = s.sig := rfl
@[simp] theorem State.setLastDiag_lastDiag (s : State) (c : BitVec 2) : (s.setLastDiag c).lastDiag = c := rfl
@[simp] theorem State.setLastDiag_enc (s : State) (c : BitVec 2) : (s.setLastDiag c).enc = s.enc := rfl
@[simp] theorem State.setLastDiag_trace (s : State) (c : BitVec 2) : (s.setLastDiag c).trace = s.trace := rfl
@[simp] theorem State.setLastDiag_port (s : State) (c : BitVec 2) : (s.setLastDiag c).port = s.port := rfl
@[simp] theorem State.setLastDiag_rst (s : State) (c : BitVec 2) : (s.setLastDiag c).rst = s.rst := rfl
@[simp] theorem State.setLastDiag_buf (s : State) (c : BitVec 2) (k : Bool) : (s.setLastDiag c).buf k = s.buf k := rfl
@[simp] theorem State.setLastDiag_live (s : State) (c : BitVec 2) : (s.setLastDiag c).live = s.live := rfl
@[simp] theorem State.setLastDiag_next (s : State) (c : BitVec 2) : (s.setLastDiag c).next = s.next := rfl

/-! ### setEnc -/

@[simp] theorem State.setEnc_cfg (s : State) (e : Option Encoder) : (s.setEnc e).cfg = s.cfg := rfl
@[simp] theorem State.setEnc_buf0 (s : State) (e : Option Encoder) : (s.setEnc e).buf0 = s.buf0 := rfl
@[simp] theorem State.setEnc_buf1 (s : State) (e : Option Encoder) : (s.setEnc e).buf1 = s.buf1 := rfl
@[simp] theorem State.setEnc_liveSel (s : State) (e : Option Encoder) : (s.setEnc e).liveSel = s.liveSel := rfl
@[simp] theorem State.setEnc_elapsed (s : State) (e : Option Encoder) : (s.setEnc e).elapsed = s.elapsed := rfl
@[simp] theorem State.setEnc_dot (s : State) (e : Option Encoder) : (s.setEnc e).dot = s.dot := rfl
@[simp] theorem State.setEnc_repeatFlag (s : State) (e : Option Encoder) : (s.setEnc e).repeatFlag = s.repeatFlag := rfl
@[simp] theorem State.setEnc_repeatNext (s : State) (e : Option Encoder) : (s.setEnc e).repeatNext = s.repeatNext := rfl
@[simp] theorem State.setEnc_sig (s : State) (e : Option Encoder) : (s.setEnc e).sig = s.sig := rfl
@[simp] theorem State.setEnc_lastDiag (s : State) (e : Option Encoder) : (s.setEnc e).lastDiag = s.lastDiag := rfl
@[simp] theorem State.setEnc_enc (s : State) (e : Option Encoder) : (s.setEnc e).enc = e := rfl
@[simp] theorem State.setEnc_trace (s : State) (e : Option Encoder) : (s.setEnc e).trace = s.trace := rfl
@[simp] theorem State.setEnc_port (s : State) (e : Option Encoder) : (s.setEnc e).port = s.port := rfl
@[simp] theorem State.setEnc_rst (s : State) (e : Option Encoder) : (s.setEnc e).rst = s.rst := rfl
@[simp] theorem State.setEnc_buf (s : State) (e : Option Encoder) (k : Bool) : (s.setEnc e).buf k = s.buf k := rfl
@[simp] theorem State.setEnc_live (s : State) (e : Option Encoder) : (s.setEnc e).live = s.live := rfl
@[simp] theorem State.setEnc_next (s : State) (e : Option Encoder) : (s.setEnc e).next = s.next := rfl

/-! ### addEvent -/

@[simp] theorem State.addEvent_cfg (s : State) (e : Event) : (s.addEvent e).cfg = s.cfg := rfl
@[simp] theorem State.addEvent_buf0 (s : State) (e : Event) : (s.addEvent e).buf0 = s.buf0 := rfl
@[simp] theorem State.addEvent_buf1 (s : State) (e : Event) : (s.addEvent e).buf1 = s.buf1 := rfl
@[simp] theorem State.addEvent_liveSel (s : State) (e : Event) : (s.addEvent e).liveSel = s.liveSel := rfl
@[simp] theorem State.addEvent_elapsed (s : State) (e : Event) : (s.addEvent e).elapsed = s.elapsed := rfl
@[simp] theorem State.addEvent_dot (s : State) (e : Event) : (s.addEvent e).dot = s.dot := rfl
@[simp] theorem State.addEvent_repeatFlag (s : State) (e : Event) : (s.addEvent e).repeatFlag = s.repeatFlag := rfl
@[simp] theorem State.addEvent_repeatNext (s : State) (e : Event) : (s.addEvent e).repeatNext = s.repeatNext := rfl
@[simp] theorem State.addEvent_sig (s : State) (e : Event) : (s.addEvent e).sig = s.sig := rfl
@[simp] theorem State.addEvent_lastDiag (s : State) (e : Event) : (s.addEvent e).lastDiag = s.lastDiag := rfl
@[simp] theorem State.addEvent_enc (s : State) (e : Event) : (s.addEvent e).enc = s.enc := rfl
@[simp] theorem State.addEvent_trace (s : State) (e : Event) : (s.addEvent e).trace = s.trace ++ [e] := rfl
@[simp] theorem State.addEvent_port (s : State) (e : Event) : (s.addEvent e).port = s.port := rfl
@[simp] theorem State.addEvent_rst (s : State) (e : Event) : (s.addEvent e).rst = s.rst := rfl
@[simp] theorem State.addEvent_buf (s : State) (e : Event) (k : Bool) : (s.addEvent e).buf k = s.buf k := rfl
@[simp] theorem State.addEvent_live (s : State) (e : Event) : (s.addEvent e).live = s.live := rfl
@[simp] theorem State.addEvent_next (s : State) (e : Event) : (s.addEvent e).next = s.next := rfl

/-! ### setPort -/

@[simp] theorem State.setPort_cfg (s : State) (ws : List Word) : (s.setPort ws).cfg = s.cfg := rfl
@[simp] theorem State.setPort_buf0 (s : State) (ws : List Word) : (s.setPort ws).buf0 = s.buf0 := rfl
@[simp] theorem State.setPort_buf1 (s : State) (ws : List Word) : (s.setPort ws).buf1 = s.buf1 := rfl
@[simp] theorem State.setPort_liveSel (s : State) (ws : List Word) : (s.setPort ws).liveSel = s.liveSel := rfl
@[simp] theorem State.setPort_elapsed (s : State) (ws : List Word) : (s.setPort ws).elapsed = s.elapsed := rfl
@[simp] theorem State.setPort_dot (s : State) (ws : List Word) : (s.setPort ws).dot = s.dot := rfl
@[simp] theorem State.setPort_repeatFlag (s : State) (ws : List Word) : (s.setPort ws).repeatFlag = s.repeatFlag := rfl
@[simp] theorem State.setPort_repeatNext (s : State) (ws : List Word) : (s.setPort ws).repeatNext = s.repeatNext := rfl
@[simp] theorem State.setPort_sig (s : State) (ws : List Word) : (s.setPort ws).sig = s.sig := rfl
@[simp] theorem State.setPort_lastDiag (s : State) (ws : List Word) : (s.setPort ws).lastDiag = s.lastDiag := rfl
@[simp] theorem State.setPort_enc (s : State) (ws : List Word) : (s.setPort ws).enc = s.enc := rfl
@[simp] theorem State.setPort_trace (s : State) (ws : List Word) : (s.setPort ws).trace = s.trace := rfl
@[simp] theorem State.setPort_port (s : State) (ws : List Word) : (s.setPort ws).port = ws := rfl
@[simp] theorem State.setPort_rst (s : State) (ws : List Word) : (s.setPort ws).rst = s.rst := rfl
@[simp] theorem State.setPort_buf (s : State) (ws : List Word) (k : Bool) : (s.setPort ws).buf k = s.buf k := rfl
@[simp] theorem State.setPort_live (s : State) (ws : List Word) : (s.setPort ws).live = s.live := rfl
@[simp] theorem State.setPort_next (s : State) (ws : List Word) : (s.setPort ws).next = s.next := rfl

/-! ### setRst -/

@[simp] theorem State.setRst_cfg (s : State) (r : Option BufInit) : (s.setRst r).cfg = s.cfg := rfl
@[simp] theorem State.setRst_buf0 (s : State) (r : Option BufInit) : (s.setRst r).buf0 = s.buf0 := rfl
@[simp] theorem State.setRst_buf1 (s : State) (r : Option BufInit) : (s.setRst r).buf1 = s.buf1 := rfl
@[simp] theorem State.setRst_liveSel (s : State) (r : Option BufInit) : (s.setRst r).liveSel = s.liveSel := rfl
@[simp] theorem State.setRst_elapsed (s : State) (r : Option BufInit) : (s.setRst r).elapsed = s.elapsed := rfl
@[simp] theorem State.setRst_dot (s : State) (r : Option BufInit) : (s.setRst r).dot = s.dot := rfl
@[simp] theorem State.setRst_repeatFlag (s : State) (r : Option BufInit) : (s.setRst r).repeatFlag = s.repeatFlag := rfl
@[simp] theorem State.setRst_repeatNext (s : State) (r : Option BufInit) : (s.setRst r).repeatNext = s.repeatNext := rfl
@[simp] theorem State.setRst_sig (s : State) (r : Option BufInit) : (s.setRst r).sig = s.sig := rfl
@[simp] theorem State.setRst_lastDiag (s : State) (r : Option BufInit) : (s.setRst r).lastDiag = s.lastDiag := rfl
@[simp] theorem State.setRst_enc (s : State) (r : Option BufInit) : (s.setRst r).enc = s.enc := rfl
@[simp] theorem State.setRst_trace (s : State) (r : Option BufInit) : (s.setRst r).trace = s.trace := rfl
@[simp] theorem State.setRst_port (s : State) (r : Option BufInit) : (s.setRst r).port = s.port := rfl
@[simp] theorem State.setRst_rst (s : State) (r : Option BufInit) : (s.setRst r).rst = r := rfl
@[simp] theorem State.setRst_buf (s : State) (r : Option BufInit) (k : Bool) : (s.setRst r).buf k = s.buf k := rfl
@[simp] theorem State.setRst_live (s : State) (r : Option BufInit) : (s.setRst r).live = s.live := rfl
@[simp] theorem State.setRst_next (s : State) (r : Option BufInit) : (s.setRst r).next = s.next := rfl

/-! ### emit -/

@[simp] theorem State.emit_cfg (s : State) (x : Bool) : (s.emit x).cfg = s.cfg := rfl
@[simp] theorem State.emit_buf0 (s : State) (x : Bool) : (s.emit x).buf0 = s.buf0 := rfl
@[simp] theorem State.emit_buf1 (s : State) (x : Bool) : (s.emit x).buf1 = s.buf1 := rfl
@[simp] theorem State.emit_liveSel (s : State) (x : Bool) : (s.emit x).liveSel = s.liveSel := rfl
@[simp] theorem State.emit_elapsed (s : State) (x : Bool) : (s.emit x).elapsed = s.elapsed := rfl
@[simp] theorem State.emit_dot (s : State) (x : Bool) : (s.emit x).dot = s.dot := rfl
@[simp] theorem State.emit_repeatFlag (s : State) (x : Bool) : (s.emit x).repeatFlag = s.repeatFlag := rfl
@[simp] theorem State.emit_repeatNext (s : State) (x : Bool) : (s.emit x).repeatNext = s.repeatNext := rfl
@[simp] theorem State.emit_sig (s : State) (x : Bool) : (s.emit x).sig = x := rfl
@[simp] theorem State.emit_lastDiag (s : State) (x : Bool) : (s.emit x).lastDiag = s.lastDiag := rfl
@[simp] theorem State.emit_enc (s : State) (x : Bool) : (s.emit x).enc = s.enc := rfl
@[simp] theorem State.emit_trace (s : State) (x : Bool) : (s.emit x).trace = s.trace ++ [.sig x] := rfl
@[simp] theorem State.emit_port (s : State) (x : Bool) : (s.emit x).port = s.port := rfl
@[simp] theorem State.emit_rst (s : State) (x : Bool) : (s.emit x).rst = s.rst := rfl
@[simp] theorem State.emit_buf (s : State) (x : Bool) (k : Bool) : (s.emit x).buf k = s.buf k := rfl
@[simp] theorem State.emit_live (s : State) (x : Bool) : (s.emit x).live = s.live := rfl
@[simp] theorem State.emit_next (s : State) (x : Bool) : (s.emit x).next = s.next := rfl

/-! ### diag -/

@[simp] theorem State.diag_cfg (s : State) (e : Error) : (s.diag e).cfg = s.cfg := rfl
@[simp] theorem State.diag_buf0 (s : State) (e : Error) : (s.diag e).buf0 = s.buf0 := rfl
@[simp] theorem State.diag_buf1 (s : State) (e : Error) : (s.diag e).buf1 = s.buf1 := rfl
@[simp] theorem State.diag_liveSel (s : State) (e : Error) : (s.diag e).liveSel = s.liveSel := rfl
@[simp] theorem State.diag_elapsed (s : State) (e : Error) : (s.diag e).elapsed = s.elapsed := rfl
@[simp] theorem State.diag_dot (s : State) (e : Error) : (s.diag e).dot = s.dot := rfl
@[simp] theorem State.diag_repeatFlag (s : State) (e : Error) : (s.diag e).repeatFlag = s.repeatFlag := rfl
@[simp] theorem State.diag_repeatNext (s : State) (e : Error) : (s.diag e).repeatNext = s.repeatNext := rfl
@[simp] theorem State.diag_sig (s : State) (e : Error) : (s.diag e).sig = s.sig := rfl
@[simp] theorem State.diag_lastDiag (s : State) (e : Error) : (s.diag e).lastDiag = e.code := rfl
@[simp] theorem State.diag_enc (s : State) (e : Error) : (s.diag e).enc = s.enc := rfl
@[simp] theorem State.diag_trace (s : State) (e : Error) : (s.diag e).trace = s.trace ++ [.diag e] := rfl
@[simp] theorem State.diag_port (s : State) (e : Error) : (s.diag e).port = s.port := rfl
@[simp] theorem State.diag_rst (s : State) (e : Error) : (s.diag e).rst = s.rst := rfl
@[simp] theorem State.diag_buf (s : State) (e : Error) (k : Bool) : (s.diag e).buf k = s.buf k := rfl
@[simp] theorem State.diag_live (s : State) (e : Error) : (s.diag e).live = s.live := rfl
@[simp] theorem State.diag_next (s : State) (e : Error) : (s.diag e).next = s.next := rfl

/-! ### setBuf, setLive, setNext -/

@[simp] theorem State.setBuf_cfg (s : State) (k : Bool) (m : Memory) : (s.setBuf k m).cfg = s.cfg := by
  cases k <;> rfl
@[simp] theorem State.setBuf_liveSel (s : State) (k : Bool) (m : Memory) : (s.setBuf k m).liveSel = s.liveSel := by
  cases k <;> rfl
@[simp] theorem State.setBuf_elapsed (s : State) (k : Bool) (m : Memory) : (s.setBuf k m).elapsed = s.elapsed := by
  cases k <;> rfl
@[simp] theorem State.setBuf_dot (s : State) (k : Bool) (m : Memory) : (s.setBuf k m).dot = s.dot := by
  cases k <;> rfl
@[simp] theorem State.setBuf_repeatFlag (s : State) (k : Bool) (m : Memory) : (s.setBuf k m).repeatFlag = s.repeatFlag := by
  cases k <;> rfl
@[simp] theorem State.setBuf_repeatNext (s : State) (k : Bool) (m : Memory) : (s.setBuf k m).repeatNext = s.repeatNext := by
  cases k <;> rfl
@[simp] theorem State.setBuf_sig (s : State) (k : Bool) (m : Memory) : (s.setBuf k m).sig = s.sig := by
  cases k <;> rfl
@[simp] theorem State.setBuf_lastDiag (s : State) (k : Bool) (m : Memory) : (s.setBuf k m).lastDiag = s.lastDiag := by
  cases k <;> rfl
@[simp] theorem State.setBuf_enc (s : State) (k : Bool) (m : Memory) : (s.setBuf k m).enc = s.enc := by
  cases k <;> rfl
@[simp] theorem State.setBuf_trace (s : State) (k : Bool) (m : Memory) : (s.setBuf k m).trace = s.trace := by
  cases k <;> rfl
@[simp] theorem State.setBuf_port (s : State) (k : Bool) (m : Memory) : (s.setBuf k m).port = s.port := by
  cases k <;> rfl
@[simp] theorem State.setBuf_rst (s : State) (k : Bool) (m : Memory) : (s.setBuf k m).rst = s.rst := by
  cases k <;> rfl
@[simp] theorem State.setLive_cfg (s : State) (m : Memory) : (s.setLive m).cfg = s.cfg := by
  simp [State.setLive]
@[simp] theorem State.setLive_liveSel (s : State) (m : Memory) : (s.setLive m).liveSel = s.liveSel := by
  simp [State.setLive]
@[simp] theorem State.setLive_elapsed (s : State) (m : Memory) : (s.setLive m).elapsed = s.elapsed := by
  simp [State.setLive]
@[simp] theorem State.setLive_dot (s : State) (m : Memory) : (s.setLive m).dot = s.dot := by
  simp [State.setLive]
@[simp] theorem State.setLive_repeatFlag (s : State) (m : Memory) : (s.setLive m).repeatFlag = s.repeatFlag := by
  simp [State.setLive]
@[simp] theorem State.setLive_repeatNext (s : State) (m : Memory) : (s.setLive m).repeatNext = s.repeatNext := by
  simp [State.setLive]
@[simp] theorem State.setLive_sig (s : State) (m : Memory) : (s.setLive m).sig = s.sig := by
  simp [State.setLive]
@[simp] theorem State.setLive_lastDiag (s : State) (m : Memory) : (s.setLive m).lastDiag = s.lastDiag := by
  simp [State.setLive]
@[simp] theorem State.setLive_enc (s : State) (m : Memory) : (s.setLive m).enc = s.enc := by
  simp [State.setLive]
@[simp] theorem State.setLive_trace (s : State) (m : Memory) : (s.setLive m).trace = s.trace := by
  simp [State.setLive]
@[simp] theorem State.setLive_port (s : State) (m : Memory) : (s.setLive m).port = s.port := by
  simp [State.setLive]
@[simp] theorem State.setLive_rst (s : State) (m : Memory) : (s.setLive m).rst = s.rst := by
  simp [State.setLive]
@[simp] theorem State.setNext_cfg (s : State) (m : Memory) : (s.setNext m).cfg = s.cfg := by
  simp [State.setNext]
@[simp] theorem State.setNext_liveSel (s : State) (m : Memory) : (s.setNext m).liveSel = s.liveSel := by
  simp [State.setNext]
@[simp] theorem State.setNext_elapsed (s : State) (m : Memory) : (s.setNext m).elapsed = s.elapsed := by
  simp [State.setNext]
@[simp] theorem State.setNext_dot (s : State) (m : Memory) : (s.setNext m).dot = s.dot := by
  simp [State.setNext]
@[simp] theorem State.setNext_repeatFlag (s : State) (m : Memory) : (s.setNext m).repeatFlag = s.repeatFlag := by
  simp [State.setNext]
@[simp] theorem State.setNext_repeatNext (s : State) (m : Memory) : (s.setNext m).repeatNext = s.repeatNext := by
  simp [State.setNext]
@[simp] theorem State.setNext_sig (s : State) (m : Memory) : (s.setNext m).sig = s.sig := by
  simp [State.setNext]
@[simp] theorem State.setNext_lastDiag (s : State) (m : Memory) : (s.setNext m).lastDiag = s.lastDiag := by
  simp [State.setNext]
@[simp] theorem State.setNext_enc (s : State) (m : Memory) : (s.setNext m).enc = s.enc := by
  simp [State.setNext]
@[simp] theorem State.setNext_trace (s : State) (m : Memory) : (s.setNext m).trace = s.trace := by
  simp [State.setNext]
@[simp] theorem State.setNext_port (s : State) (m : Memory) : (s.setNext m).port = s.port := by
  simp [State.setNext]
@[simp] theorem State.setNext_rst (s : State) (m : Memory) : (s.setNext m).rst = s.rst := by
  simp [State.setNext]

/-- Reading back the buffer just written, and the other one. -/
theorem State.buf_setBuf (s : State) (k j : Bool) (m : Memory) :
    (s.setBuf k m).buf j = if j = k then m else s.buf j := by
  cases k <;> cases j <;> rfl

theorem State.setBuf_buf0 (s : State) (k : Bool) (m : Memory) : (s.setBuf k m).buf0 = if k then s.buf0 else m := by
  cases k <;> rfl

theorem State.setBuf_buf1 (s : State) (k : Bool) (m : Memory) : (s.setBuf k m).buf1 = if k then m else s.buf1 := by
  cases k <;> rfl

@[simp] theorem State.setLive_live (s : State) (m : Memory) : (s.setLive m).live = m := by
  simp [State.live, State.setLive, State.buf_setBuf]

@[simp] theorem State.setLive_next (s : State) (m : Memory) : (s.setLive m).next = s.next := by
  simp [State.next, State.setLive, State.buf_setBuf]

@[simp] theorem State.setNext_next (s : State) (m : Memory) : (s.setNext m).next = m := by
  simp [State.next, State.setNext, State.buf_setBuf]

@[simp] theorem State.setNext_live (s : State) (m : Memory) : (s.setNext m).live = s.live := by
  simp [State.live, State.setNext, State.buf_setBuf]

/-- A property of both buffers, said of LIVE and NEXT or of BUF[0] and BUF[1]. -/
theorem State.buffers_iff (s : State) (P : Memory → Prop) : P s.buf0 ∧ P s.buf1 ↔ P s.live ∧ P s.next := by
  unfold State.live State.next State.buf
  cases s.liveSel <;> simp [and_comm]

end Sys2Proof.Machine
end

