-- ==== Sys2Proof/Laws/Encoder.lean ====
section
/-! SUPPORT. What the Bit Writer and the Encoder do: one specification per operation, and the closed form of SUBMIT. -/

namespace Sys2Proof.Machine

/-! ### One bit -/

theorem byteAddr_eq_iff {j k : Nat} : byteAddr j = byteAddr k ↔ j / 8 = k / 8 := by
  unfold byteAddr; omega

theorem wf_writeBit {m : Memory} (h : m.wf = true) (k : Nat) (v : Bool) : (writeBit m k v).wf = true := by
  unfold writeBit
  apply Memory.wf_write
  split
  · exact Memory.wf_write h
  · exact h

theorem below_writeBit {cap : Nat} {m : Memory} (h : Memory.below cap m = true) {k : Nat} (hk : byteAddr k < cap)
    (v : Bool) : Memory.below cap (writeBit m k v) = true := by
  unfold writeBit
  apply Memory.below_write _ hk
  split
  · exact Memory.below_write h hk
  · exact h

/-- A bit write changes one byte. -/
theorem read_writeBit_other {m : Memory} (h : m.wf = true) {k a : Nat} (v : Bool) (ha : a ≠ byteAddr k) :
    (writeBit m k v).read a = m.read a := by
  unfold writeBit
  split
  · rw [Memory.read_write_other (Memory.wf_write h) _ ha, Memory.read_write_other h _ ha]
  · rw [Memory.read_write_other h _ ha]

/-- The byte a bit write leaves. -/
theorem read_writeBit_same {m : Memory} (h : m.wf = true) (k : Nat) (v : Bool) :
    (writeBit m k v).read (byteAddr k) =
      (if bitPos k = 0 then 0#8 else m.read (byteAddr k)) ||| (BitVec.ofBool v).setWidth 8 <<< bitPos k := by
  unfold writeBit
  split
  · rw [Memory.read_write_same (Memory.wf_write h), Memory.read_write_same h]
  · rw [Memory.read_write_same h]

theorem getLsbD_shifted_bool (v : Bool) (p i : Nat) (hp : p < 8) :
    ((BitVec.ofBool v).setWidth 8 <<< p).getLsbD i = (v && decide (i = p)) := by
  rw [BitVec.getLsbD_shiftLeft, BitVec.getLsbD_setWidth]
  by_cases hi : i = p
  · subst hi
    simp [hp]
  · by_cases hlt : i < p
    · simp [hlt, hi]
    · have : i - p ≠ 0 := by omega
      obtain ⟨n, hn⟩ := Nat.exists_eq_succ_of_ne_zero this
      cases v <;> simp [hn, hi]

/-- The content bits a bit write leaves. -/
theorem contentBit_writeBit {m : Memory} (h : m.wf = true) (k : Nat) (v : Bool) (j : Nat) :
    (writeBit m k v).contentBit j =
      if j = k then ((decide (bitPos k ≠ 0) && m.contentBit k) || v)
      else if byteAddr j = byteAddr k ∧ bitPos k = 0 then false else m.contentBit j := by
  unfold Memory.contentBit
  by_cases hb : byteAddr j = byteAddr k
  · rw [hb, read_writeBit_same h, BitVec.getLsbD_or, getLsbD_shifted_bool _ _ _ (by unfold bitPos; omega)]
    have hjk : bitPos j = bitPos k ↔ j = k := by
      rw [byteAddr_eq_iff] at hb
      unfold bitPos
      omega
    by_cases hj : j = k
    · subst hj
      by_cases h0 : bitPos j = 0 <;> simp [h0]
    · have : ¬ bitPos j = bitPos k := fun e => hj (hjk.1 e)
      by_cases h0 : bitPos k = 0
      · simp [h0, hj]
        omega
      · simp [h0, hj, this]
  · rw [read_writeBit_other h v hb, if_neg (fun e => hb (by rw [e])), if_neg (fun e => hb e.1)]

/-! ### Units written in order -/

theorem unitsWritten_nil (m : Memory) : UnitsWritten m m [] :=
  ⟨fun k h => absurd h (by simp), fun k _ h => absurd h (by simp), fun _ _ => rfl, fun _ _ => rfl⟩

/-- One more unit at the end of those written so far. -/
theorem unitsWritten_writeBit {m0 m : Memory} {us : List Bool} (hwf : m.wf = true) (h : UnitsWritten m0 m us)
    (v : Bool) : UnitsWritten m0 (writeBit m us.length v) (us ++ [v]) := by
  have hb : byteAddr us.length = 4 + us.length / 8 := rfl
  have hp : bitPos us.length = us.length % 8 := rfl
  refine ⟨fun k hk => ?_, fun k hk hk' => ?_, fun a ha => ?_, fun a ha => ?_⟩
  · rw [contentBit_writeBit hwf]
    by_cases he : k = us.length
    · subst he
      by_cases h0 : bitPos us.length = 0
      · simp [h0]
      · have := h.padding us.length (Nat.le_refl _) (by omega)
        simp [this]
    · have hlt : k < us.length := by
        simp at hk
        omega
      rw [if_neg he, if_neg, h.units k hlt, List.getElem_append_left hlt]
      rintro ⟨e, e0⟩
      rw [byteAddr_eq_iff] at e
      omega
  · simp only [List.length_append, List.length_cons, List.length_nil, Nat.zero_add] at hk hk'
    rw [contentBit_writeBit hwf, if_neg (by omega)]
    by_cases h0 : bitPos us.length = 0
    · rw [if_pos ⟨byteAddr_eq_iff.2 (by omega), h0⟩]
    · rw [if_neg (fun e => h0 e.2)]
      exact h.padding k (by omega) (by omega)
  · rw [read_writeBit_other hwf v (by omega)]
    exact h.header a ha
  · simp only [List.length_append, List.length_cons, List.length_nil, Nat.zero_add] at ha
    rw [read_writeBit_other hwf v (by omega)]
    exact h.beyond a (by omega)

theorem wf_writeBits {m : Memory} (h : m.wf = true) (k : Nat) (v : Bool) (n : Nat) :
    (writeBits m k v n).wf = true := by
  induction n generalizing m k with
  | zero => exact h
  | succ n ih => exact ih (wf_writeBit h k v) (k + 1)

theorem below_writeBits {cap : Nat} {m : Memory} (h : Memory.below cap m = true) (k : Nat) (v : Bool) (n : Nat)
    (hk : k + n ≤ 8 * (cap - 4)) : Memory.below cap (writeBits m k v n) = true := by
  induction n generalizing m k with
  | zero => exact h
  | succ n ih => exact ih (below_writeBit h (by unfold byteAddr; omega) v) (k + 1) (by omega)

/-- A run at the end of the units written so far. -/
theorem unitsWritten_writeBits {m0 m : Memory} {us : List Bool} (hwf : m.wf = true) (h : UnitsWritten m0 m us)
    (v : Bool) (n : Nat) : UnitsWritten m0 (writeBits m us.length v n) (us ++ List.replicate n v) := by
  induction n generalizing m us with
  | zero => simpa [writeBits] using h
  | succ n ih =>
    have := ih (wf_writeBit hwf us.length v) (unitsWritten_writeBit hwf h v)
    simpa [writeBits, List.replicate_succ] using this

/-! ### AppendRun (40_encoder.md R110) -/

/-- AppendRun's only outcomes: OVERFLOW exactly when the run would pass BITCAP, else the bits written. -/
theorem appendRun_cases (p : Params) (m : Memory) (i : Word) (v : Bool) (n : Nat) :
    (p.bitcap < i.toNat + n ∧ appendRun p m i v n = none) ∨
      (i.toNat + n ≤ p.bitcap ∧ appendRun p m i v n = some (writeBits m i.toNat v n)) := by
  unfold appendRun
  split
  · exact .inl ⟨‹_›, rfl⟩
  · exact .inr ⟨by omega, rfl⟩

/-! ### The Encoder -/

/-- What the Encoder has done so far: the units `us` written into `m0`, PTR at their end, FAIL = `f`. -/
structure Encoding.Holds (p : Params) (m0 : Memory) (us : List Bool) (f : Option Error) (x : Encoding) : Prop where
  fail : x.regs.fail = f
  wf : x.buf.wf = true
  written : UnitsWritten m0 x.buf us
  ptr : x.regs.ptr.toNat = us.length
  fits : us.length ≤ p.bitcap
  below : Memory.below p.cap m0 = true → Memory.below p.cap x.buf = true

theorem runUnits_nil : runUnits [] = [] := rfl

theorem runUnits_cons (r : Run) (rs : List Run) :
    runUnits (r :: rs) = List.replicate r.count r.value ++ runUnits rs := rfl

theorem Encoding.run_of_fail {p : Params} {x : Encoding} {e : Error} (h : x.regs.fail = some e) (r : Run) :
    x.run p r = x := by
  unfold Encoding.run
  rw [h]

/-- After an error no run has an effect (40_encoder.md R121). -/
theorem Encoding.runs_of_fail {p : Params} {x : Encoding} {e : Error} (h : x.regs.fail = some e) (rs : List Run) :
    x.runs p rs = x := by
  unfold Encoding.runs
  induction rs with
  | nil => rfl
  | cons r rs ih => rw [List.foldl_cons, Encoding.run_of_fail h]; exact ih

theorem Encoding.run_rem (p : Params) (x : Encoding) (r : Run) : (x.run p r).regs.rem = x.regs.rem := by
  unfold Encoding.run Encoding.raise
  repeat' (first | rfl | split)

theorem Encoding.runs_rem (p : Params) (x : Encoding) (rs : List Run) : (x.runs p rs).regs.rem = x.regs.rem := by
  unfold Encoding.runs
  induction rs generalizing x with
  | nil => rfl
  | cons r rs ih => rw [List.foldl_cons, ih, Encoding.run_rem]

/-- A run that fits is appended. -/
theorem Encoding.run_ok {p : Params} {m0 : Memory} {us : List Bool} {x : Encoding} {r : Run}
    (hp : p.bitcap ≤ 2 ^ 32 - 1) (h : x.Holds p m0 us none) (hfit : us.length + r.count ≤ p.bitcap) :
    (x.run p r).Holds p m0 (us ++ List.replicate r.count r.value) none := by
  have hrun : appendRun p x.buf x.regs.ptr r.value r.count = some (writeBits x.buf us.length r.value r.count) := by
    rcases appendRun_cases p x.buf x.regs.ptr r.value r.count with ⟨hlt, -⟩ | ⟨-, he⟩
    · rw [h.ptr] at hlt; omega
    · rw [he, h.ptr]
  have heq : x.run p r =
      ⟨writeBits x.buf us.length r.value r.count, { x.regs with ptr := x.regs.ptr + BitVec.ofNat 32 r.count }⟩ := by
    unfold Encoding.run
    rw [h.fail, hrun]
  rw [heq]
  refine ⟨h.fail, wf_writeBits h.wf _ _ _, unitsWritten_writeBits h.wf h.written _ _, ?_, ?_, fun hb => ?_⟩
  · simp only [BitVec.toNat_add, BitVec.toNat_ofNat, h.ptr, List.length_append, List.length_replicate]
    omega
  · simpa using hfit
  · exact below_writeBits (h.below hb) _ _ _ hfit

/-- A run that does not fit raises EncodingOverflow and writes nothing (40_encoder.md R110, R127). -/
theorem Encoding.run_overflow {p : Params} {m0 : Memory} {us : List Bool} {x : Encoding} {r : Run}
    (h : x.Holds p m0 us none) (hover : p.bitcap < us.length + r.count) :
    (x.run p r).Holds p m0 us (some .encodingOverflow) := by
  have hrun : appendRun p x.buf x.regs.ptr r.value r.count = none := by
    rcases appendRun_cases p x.buf x.regs.ptr r.value r.count with ⟨-, he⟩ | ⟨hle, -⟩
    · exact he
    · rw [h.ptr] at hle; omega
  have heq : x.run p r = { x with regs := { x.regs with fail := some .encodingOverflow } } := by
    unfold Encoding.run Encoding.raise
    rw [h.fail, hrun]
  rw [heq]
  exact ⟨rfl, h.wf, h.written, h.ptr, h.fits, h.below⟩

/-- Runs one after another: those that fit are appended, and EncodingOverflow is raised when one is left over
(40_encoder.md R110, R127). -/
theorem Encoding.runs_spec {p : Params} {m0 : Memory} {us : List Bool} {x : Encoding} (rs : List Run)
    (hp : p.bitcap ≤ 2 ^ 32 - 1) (h : x.Holds p m0 us none) :
    (x.runs p rs).Holds p m0 (us ++ runUnits (runsThatFit p.bitcap us.length rs))
      (if us.length + (runUnits rs).length ≤ p.bitcap then none else some .encodingOverflow) := by
  induction rs generalizing x us with
  | nil => simpa [Encoding.runs, runUnits, runsThatFit, h.fits] using h
  | cons r rs ih =>
    have hstep : x.runs p (r :: rs) = (x.run p r).runs p rs := rfl
    have hlen : (runUnits (r :: rs)).length = r.count + (runUnits rs).length := by simp [runUnits_cons]
    rw [hstep, hlen]
    by_cases hr : us.length + r.count ≤ p.bitcap
    · have := ih (Encoding.run_ok hp h hr)
      rw [List.length_append, List.length_replicate] at this
      rw [runsThatFit, if_pos hr, runUnits_cons, ← List.append_assoc, ← Nat.add_assoc]
      exact this
    · have h1 := Encoding.run_overflow h (r := r) (by omega)
      rw [runsThatFit, if_neg hr, if_neg (by omega), runUnits_nil, List.append_nil,
        Encoding.runs_of_fail h1.fail]
      exact h1

/-- Runs that all fit advance PTR by their units, and raise nothing (40_encoder.md R120). -/
theorem Encoding.runs_ptr {p : Params} {x : Encoding} (rs : List Run) (hp : p.bitcap ≤ 2 ^ 32 - 1)
    (hf : x.regs.fail = none) (hfit : x.regs.ptr.toNat + (runUnits rs).length ≤ p.bitcap) :
    (x.runs p rs).regs.ptr.toNat = x.regs.ptr.toNat + (runUnits rs).length ∧ (x.runs p rs).regs.fail = none := by
  induction rs generalizing x with
  | nil => exact ⟨rfl, hf⟩
  | cons r rs ih =>
    have hlen : (runUnits (r :: rs)).length = r.count + (runUnits rs).length := by simp [runUnits_cons]
    rw [hlen] at hfit ⊢
    rcases appendRun_cases p x.buf x.regs.ptr r.value r.count with ⟨hlt, -⟩ | ⟨-, he⟩
    · omega
    have heq : x.run p r =
        ⟨writeBits x.buf x.regs.ptr.toNat r.value r.count,
          { x.regs with ptr := x.regs.ptr + BitVec.ofNat 32 r.count }⟩ := by
      unfold Encoding.run
      rw [hf, he]
    have hptr : (x.run p r).regs.ptr.toNat = x.regs.ptr.toNat + r.count := by
      rw [heq]; simp only [BitVec.toNat_add, BitVec.toNat_ofNat]; omega
    have := ih (x := x.run p r) (by rw [heq]; exact hf) (by rw [hptr]; omega)
    rw [hptr, Nat.add_assoc] at this
    exact this

/-- Runs that all fit are all of them. -/
theorem runsThatFit_all {cap used : Nat} {rs : List Run} (h : used + (runUnits rs).length ≤ cap) :
    runsThatFit cap used rs = rs := by
  induction rs generalizing used with
  | nil => rfl
  | cons r rs ih =>
    simp only [runUnits_cons, List.length_append, List.length_replicate] at h
    rw [runsThatFit, if_pos (by omega), ih (by omega)]

/-- The runs that fit of two sequences: when the first is not all there, none of the second. -/
theorem runsThatFit_append {cap used : Nat} (rs ts : List Run) (hused : used ≤ cap) :
    runsThatFit cap used (rs ++ ts) =
      if used + (runUnits rs).length ≤ cap then rs ++ runsThatFit cap (used + (runUnits rs).length) ts
      else runsThatFit cap used rs := by
  induction rs generalizing used with
  | nil => simp [runUnits, hused]
  | cons r rs ih =>
    have hlen : (runUnits (r :: rs)).length = r.count + (runUnits rs).length := by simp [runUnits_cons]
    rw [List.cons_append, runsThatFit, hlen]
    by_cases hr : used + r.count ≤ cap
    · rw [if_pos hr, ih hr, ← Nat.add_assoc]
      split
      · rfl
      · rw [runsThatFit, if_pos hr]
    · rw [if_neg hr, if_neg (by omega), runsThatFit, if_neg hr]

/-- What fits is within the capacity. -/
theorem runsThatFit_length {cap used : Nat} (rs : List Run) (hused : used ≤ cap) :
    used + (runUnits (runsThatFit cap used rs)).length ≤ cap := by
  induction rs generalizing used with
  | nil => simpa [runsThatFit, runUnits] using hused
  | cons r rs ih =>
    rw [runsThatFit]
    split
    · have := ih (used := used + r.count) ‹_›
      rw [runUnits_cons, List.length_append, List.length_replicate]
      omega
    · simpa [runUnits] using hused

/-! ### Characters -/

theorem symbolRuns_units (y : Symbol) : runUnits (symbolRuns y) = symbolUnits y := by
  cases y <;> rfl

theorem runUnits_append (rs ts : List Run) : runUnits (rs ++ ts) = runUnits rs ++ runUnits ts := by
  simp [runUnits]

/-- The runs of a letter are its unit pattern (40_encoder.md R105). -/
theorem letterRuns_units (s : List Symbol) : runUnits (letterRuns s) = classUnits (.symbol s) := by
  have : ∀ s : List Symbol, runUnits (s.flatMap symbolRuns) = s.flatMap symbolUnits := by
    intro s
    induction s with
    | nil => rfl
    | cons y s ih => rw [List.flatMap_cons, runUnits_append, symbolRuns_units, ih, List.flatMap_cons]
  rw [letterRuns, runUnits_cons, this]
  rfl

theorem spaceRuns_units : runUnits spaceRuns = classUnits .space := rfl

theorem trailerRuns_units : runUnits trailerRuns = trailerUnits := rfl

theorem symbolUnits_length (y : Symbol) : (symbolUnits y).length = 1 + onUnits y := by
  cases y <;> rfl

/-- A class's pattern is as long as its cost (40_encoder.md R103, R105). -/
theorem classUnits_length (c : CharClass) : (classUnits c).length = classCost c := by
  cases c with
  | space => rfl
  | invalid => rfl
  | symbol s =>
    have : ∀ s : List Symbol, (s.flatMap symbolUnits).length = (s.map fun y => 1 + onUnits y).sum := by
      intro s
      induction s with
      | nil => rfl
      | cons y s ih => simp only [List.flatMap_cons, List.length_append, symbolUnits_length, ih, List.map_cons, List.sum_cons]
    simp only [classUnits, classCost, List.length_cons, this]
    omega

/-- The runs of a character are its pattern (40_encoder.md R105). -/
theorem charRuns_units (p : Params) (c : Byte) : runUnits (charRuns p c) = charUnits p c := by
  unfold charRuns charUnits
  split
  · rw [spaceRuns_units, ‹classOf p c = _›]
  · rw [letterRuns_units, ‹classOf p c = _›]
  · rw [‹classOf p c = _›]
    rfl

theorem flatMap_charRuns_units (p : Params) (text : List Byte) :
    runUnits (text.flatMap (charRuns p)) = text.flatMap (charUnits p) := by
  induction text with
  | nil => rfl
  | cons c text ih => rw [List.flatMap_cons, runUnits_append, charRuns_units, ih, List.flatMap_cons]

theorem flatMap_charUnits_length (p : Params) (text : List Byte) :
    (text.flatMap (charUnits p)).length = textCost p text := by
  induction text with
  | nil => rfl
  | cons c text ih =>
    simp only [List.flatMap_cons, List.length_append, ih, textCost, List.map_cons, List.sum_cons]
    rw [charUnits, classUnits_length]
    rfl

theorem flatMap_charRuns_length (p : Params) (text : List Byte) :
    (runUnits (text.flatMap (charRuns p))).length = textCost p text := by
  rw [flatMap_charRuns_units, flatMap_charUnits_length]

theorem Encoding.beat_holds {p : Params} {m0 : Memory} {us : List Bool} {f : Option Error} {x : Encoding}
    (h : x.Holds p m0 us f) : x.beat.Holds p m0 us f := ⟨h.fail, h.wf, h.written, h.ptr, h.fits, h.below⟩

/-- An INVALID character (40_encoder.md R124). -/
theorem Encoding.char_invalid {p : Params} {m0 : Memory} {us : List Bool} {x : Encoding} {c : Byte}
    (h : x.Holds p m0 us none) (hc : invalidChar p c = true) :
    (x.char p c).Holds p m0 us (some .invalidCharacter) := by
  have hc : classOf p c = .invalid := by simpa [invalidChar] using hc
  have heq : x.char p c = { x with regs := { x.regs with fail := some .invalidCharacter } } := by
    unfold Encoding.char Encoding.raise
    rw [hc, h.fail]
  rw [heq]
  exact ⟨rfl, h.wf, h.written, h.ptr, h.fits, h.below⟩

/-- A character that is not INVALID appends its runs. -/
theorem Encoding.char_valid {p : Params} {c : Byte} (hc : invalidChar p c = false) (x : Encoding) :
    x.char p c = x.runs p (charRuns p c) := by
  unfold invalidChar at hc
  unfold charRuns Encoding.char
  cases hk : classOf p c with
  | space => rfl
  | symbol s => rfl
  | invalid => simp [hk] at hc

/-- After an error a character has no effect (40_encoder.md R121). -/
theorem Encoding.char_of_fail {p : Params} {x : Encoding} {e : Error} (h : x.regs.fail = some e) (c : Byte) :
    x.char p c = x := by
  unfold Encoding.char
  split
  · unfold Encoding.raise
    rw [h]
  · exact Encoding.runs_of_fail h _
  · exact Encoding.runs_of_fail h _

/-! ### Texts -/

/-- After an error the remaining characters are consumed and discarded (40_encoder.md R121). -/
theorem Encoding.text_of_fail {p : Params} {m0 : Memory} {us : List Bool} {e : Error} {x : Encoding}
    (h : x.Holds p m0 us (some e)) (text : List Byte) : (x.text p text).Holds p m0 us (some e) := by
  unfold Encoding.text
  induction text generalizing x with
  | nil => exact h
  | cons c text ih =>
    rw [List.foldl_cons, Encoding.char_of_fail h.fail]
    exact ih (Encoding.beat_holds h)

theorem validPrefix_cons_invalid {p : Params} {c : Byte} (hc : invalidChar p c = true) (text : List Byte) :
    validPrefix p (c :: text) = [] := by simp [validPrefix, hc]

theorem validPrefix_cons_valid {p : Params} {c : Byte} (hc : invalidChar p c = false) (text : List Byte) :
    validPrefix p (c :: text) = c :: validPrefix p text := by simp [validPrefix, hc]

/-- The valid prefix of a text without INVALID characters is the text. -/
theorem validPrefix_of_valid {p : Params} {text : List Byte} (hv : text.any (invalidChar p) = false) :
    validPrefix p text = text := by
  induction text with
  | nil => rfl
  | cons c text ih =>
    simp only [List.any_cons, Bool.or_eq_false_iff] at hv
    rw [validPrefix_cons_valid hv.1, ih hv.2]

/-- The characters of a text: the runs of those before the first INVALID one, as far as they fit, and the first error
(40_encoder.md R121, R124, R127, R128). -/
theorem Encoding.text_spec {p : Params} {m0 : Memory} {us : List Bool} {x : Encoding} (text : List Byte)
    (hp : p.bitcap ≤ 2 ^ 32 - 1) (h : x.Holds p m0 us none) :
    (x.text p text).Holds p m0
      (us ++ runUnits (runsThatFit p.bitcap us.length ((validPrefix p text).flatMap (charRuns p))))
      (if us.length + textCost p (validPrefix p text) ≤ p.bitcap then
        if text.any (invalidChar p) then some .invalidCharacter else none
      else some .encodingOverflow) := by
  induction text generalizing x us with
  | nil =>
    simpa [Encoding.text, validPrefix, runsThatFit, runUnits, textCost, h.fits] using h
  | cons c text ih =>
    have hstep : x.text p (c :: text) = ((x.char p c).beat).text p text := rfl
    rw [hstep]
    by_cases hc : invalidChar p c = true
    · rw [validPrefix_cons_invalid hc, List.any_cons, hc]
      have := Encoding.text_of_fail (Encoding.beat_holds (Encoding.char_invalid h hc)) text
      simpa [runsThatFit, runUnits, textCost, h.fits] using this
    · have hc : invalidChar p c = false := by simpa using hc
      have hruns := Encoding.runs_spec (charRuns p c) hp h
      rw [← Encoding.char_valid hc] at hruns
      have hlen : (runUnits (charRuns p c)).length = charCost p c := by
        rw [charRuns_units, charUnits, classUnits_length]
        rfl
      have hsum : textCost p (c :: validPrefix p text) = charCost p c + textCost p (validPrefix p text) := rfl
      rw [validPrefix_cons_valid hc, List.any_cons, hc, Bool.false_or, List.flatMap_cons, hsum,
        runsThatFit_append _ _ h.fits]
      rw [hlen] at hruns ⊢
      by_cases hr : us.length + charCost p c ≤ p.bitcap
      · rw [if_pos hr] at hruns ⊢
        rw [runsThatFit_all (by omega)] at hruns
        have := ih (Encoding.beat_holds hruns)
        rw [List.length_append, hlen] at this
        rw [runUnits_append, ← List.append_assoc, ← Nat.add_assoc]
        exact this
      · rw [if_neg hr] at hruns ⊢
        rw [if_neg (by omega)]
        exact Encoding.text_of_fail (Encoding.beat_holds hruns) text

/-! ### Encode and SUBMIT -/

theorem Encoding.start_holds (p : Params) {m : Memory} (h : m.wf = true) (n : Nat) :
    Encoding.Holds p m [] none ⟨m, Encoder.start n⟩ :=
  ⟨rfl, h, unitsWritten_nil m, rfl, Nat.zero_le _, fun hb => hb⟩

/-- REM counts the data beats down to none, whatever the encode's result (30_encoding.md R73). -/
theorem Encoding.text_rem (p : Params) (x : Encoding) (text : List Byte) :
    (x.text p text).regs.rem = x.regs.rem - text.length := by
  have hchar : ∀ (x : Encoding) c, (x.char p c).regs.rem = x.regs.rem := by
    intro x c
    unfold Encoding.char Encoding.raise
    split
    · split <;> rfl
    · exact Encoding.runs_rem p x _
    · exact Encoding.runs_rem p x _
  unfold Encoding.text
  induction text generalizing x with
  | nil => rfl
  | cons c text ih =>
    rw [List.foldl_cons, ih]
    simp only [Encoding.beat, hchar, List.length_cons]
    omega

/-- Encode's body: the runs attempted, as far as they fit, and the result of 40_encoder.md R128. -/
theorem Encoding.body_spec {p : Params} {m : Memory} (text : List Byte) (hp : p.bitcap ≤ 2 ^ 32 - 1)
    (h : m.wf = true) :
    (Encoding.body p ⟨m, Encoder.start text.length⟩ text).Holds p m (writtenUnits p text) (expectedResult p text) := by
  have ht := Encoding.text_spec text hp (Encoding.start_holds p h text.length)
  simp only [List.length_nil, Nat.zero_add, List.nil_append] at ht
  unfold Encoding.body writtenUnits runsAttempted expectedResult
  by_cases hv : text.any (invalidChar p) = true
  · rw [if_pos hv, if_pos hv]
    rw [if_pos hv] at ht
    split at ht
    · rw [Encoding.runs_of_fail ht.fail, if_pos ‹_›]
      exact ht
    · rw [Encoding.runs_of_fail ht.fail, if_neg ‹_›]
      exact ht
  · have hv' : text.any (invalidChar p) = false := by simpa using hv
    rw [if_neg hv, if_neg hv]
    rw [if_neg hv, validPrefix_of_valid hv'] at ht
    have hlen := flatMap_charRuns_length p text
    by_cases hr : textCost p text ≤ p.bitcap
    · rw [if_pos hr, runsThatFit_all (by omega)] at ht
      have h3 := Encoding.runs_spec trailerRuns hp ht
      rw [hlen, trailerRuns_units, trailerUnits, List.length_replicate] at h3
      rw [runsThatFit_append _ _ (Nat.zero_le _), if_pos (by omega), hlen, runUnits_append, Nat.zero_add]
      exact h3
    · rw [if_neg hr] at ht
      rw [runsThatFit_append _ _ (Nat.zero_le _), if_neg (by omega), if_neg (by omega),
        Encoding.runs_of_fail ht.fail]
      exact ht

/-- SUBMIT in closed form: Encode on NEXT, the flags, the result, and no Encoder registers left. -/
theorem execSubmit_eq (r : Bool) (text : List Byte) (s : State) :
    execSubmit r text s =
      .next (((((s.setNext (encodeText s.cfg s.next text).1).setRepeatNext r).setRepeat false).submitResult
        (encodeText s.cfg s.next text).2).setEnc none) := by
  unfold execSubmit State.encodeNext State.encodeCode encodeText State.submitResult
  simp only [State.setEnc_enc, State.setEnc_next, Option.bind_some]
  cases hs : s.liveSel <;> split <;>
    simp [State.setNext, State.setBuf, State.setEnc, State.setRepeatNext, State.setRepeat, State.setLastDiag,
      State.diag, State.addEvent, hs]

/-! ### What Encode and SUBMIT can do -/

/-- The parts of legal parameters. -/
theorem Params.legal_parts {p : Params} (h : p.legal = true) :
    5 ≤ p.cap ∧ p.bitcap ≤ 2 ^ 32 - 1 ∧ p.dotReset ≠ 0#16 := by
  simp only [Params.legal, Bool.and_eq_true, decide_eq_true_eq] at h
  exact ⟨h.1.1.1, h.1.1.2, h.1.2⟩

/-- Encode leaves SetLen of what its body wrote (40_encoder.md R121, R126). -/
theorem encodeText_setLen {p : Params} {m : Memory} (text : List Byte) (hp : p.bitcap ≤ 2 ^ 32 - 1)
    (h : m.wf = true) :
    ∃ v, (encodeText p m text).1 = Memory.setLen (Encoding.body p ⟨m, Encoder.start text.length⟩ text).buf v ∧
      v.toNat = if expectedResult p text = none then (writtenUnits p text).length else 0 := by
  have hb := Encoding.body_spec text hp h
  unfold encodeText Encoding.finish
  simp only [hb.fail]
  cases expectedResult p text with
  | none => exact ⟨_, rfl, by simp [hb.ptr]⟩
  | some e => exact ⟨_, rfl, by simp⟩

/-- Everything Encode can do (40_encoder.md R128, R129): its code, and the buffer it leaves. -/
structure EncodeResult (p : Params) (before after : Memory) (text : List Byte) : Prop where
  wf : after.wf = true
  fits : (writtenUnits p text).length ≤ p.bitcap
  len : after.len.toNat = if expectedResult p text = none then (writtenUnits p text).length else 0
  units : ∀ k, (h : k < (writtenUnits p text).length) → after.contentBit k = (writtenUnits p text)[k]
  padding : ∀ k, (writtenUnits p text).length ≤ k → k < 8 * (((writtenUnits p text).length + 7) / 8) →
    after.contentBit k = false
  beyond : ∀ a, 4 + ((writtenUnits p text).length + 7) / 8 ≤ a → after.read a = before.read a
  below : 5 ≤ p.cap → Memory.below p.cap before = true → Memory.below p.cap after = true

theorem encodeText_code {p : Params} {m : Memory} (text : List Byte) (hp : p.bitcap ≤ 2 ^ 32 - 1) (h : m.wf = true) :
    (encodeText p m text).2 = expectedResult p text :=
  (Encoding.body_spec text hp h).fail

theorem encodeText_result {p : Params} {m : Memory} (text : List Byte) (hp : p.bitcap ≤ 2 ^ 32 - 1)
    (h : m.wf = true) : EncodeResult p m (encodeText p m text).1 text := by
  have hb := Encoding.body_spec text hp h
  obtain ⟨v, hv, hvn⟩ := encodeText_setLen text hp h
  rw [hv]
  refine ⟨Memory.wf_setLen hb.wf v, hb.fits, ?_, fun k hk => ?_, fun k h1 h2 => ?_, fun a ha => ?_, fun hc hbel => ?_⟩
  · rw [Memory.len_setLen hb.wf, hvn]
  · rw [Memory.contentBit_setLen hb.wf]
    exact hb.written.units k hk
  · rw [Memory.contentBit_setLen hb.wf]
    exact hb.written.padding k h1 h2
  · rw [Memory.read_setLen_content hb.wf _ (by omega)]
    exact hb.written.beyond a ha
  · exact Memory.below_setLen (hb.below hbel) (by omega) _

/-- The units written on success are the whole message's. -/
theorem writtenUnits_of_success {p : Params} {text : List Byte} (h : expectedResult p text = none) :
    writtenUnits p text = messageUnits p text ∧ (messageUnits p text).length = textCost p text + 12 := by
  have hl : (messageUnits p text).length = textCost p text + 12 := by
    simp [messageUnits, trailerUnits, ← flatMap_charUnits_length]
  unfold expectedResult at h
  split at h
  · split at h <;> cases h
  · split at h
    · have hu : runUnits (text.flatMap (charRuns p) ++ trailerRuns) = messageUnits p text := by
        rw [runUnits_append, flatMap_charRuns_units, trailerRuns_units]
        rfl
      unfold writtenUnits runsAttempted
      rw [if_neg ‹_›, runsThatFit_all (by rw [hu]; omega), hu]
      exact ⟨rfl, hl⟩
    · cases h

/-- Everything SUBMIT does to each field (41_playback.md R142). -/
structure SubmitEffect (s : State) (r : Bool) (text : List Byte) (t : State) : Prop where
  next : t.next = (encodeText s.cfg s.next text).1
  live : t.live = s.live
  liveSel : t.liveSel = s.liveSel
  elapsed : t.elapsed = s.elapsed
  dot : t.dot = s.dot
  sig : t.sig = s.sig
  cfg : t.cfg = s.cfg
  port : t.port = s.port
  rst : t.rst = s.rst
  enc : t.enc = none
  repeatNext : t.repeatNext = r
  repeatFlag : t.repeatFlag = false
  lastDiag : t.lastDiag =
    match (encodeText s.cfg s.next text).2 with
    | none => 0#2
    | some e => e.code
  trace : t.trace =
    match (encodeText s.cfg s.next text).2 with
    | none => s.trace
    | some e => s.trace ++ [.diag e]

theorem execSubmit_effect (r : Bool) (text : List Byte) (s : State) :
    ∃ t, execSubmit r text s = .next t ∧ SubmitEffect s r text t := by
  refine ⟨_, execSubmit_eq r text s, ?_⟩
  constructor <;> cases (encodeText s.cfg s.next text).2 <;> simp [State.submitResult]

end Sys2Proof.Machine
end

