-- ==== Sys2Proof/Laws/PerInstr.lean ====
section
/-! SUPPORT. What holds of every command as syntax, one lemma per constructor of `Instr`. -/

namespace Sys2Proof.Laws

theorem beatCount_eq (w : Word) : beatCount w = if opField w = 0x1#4 then lengthField w else 0 := by
  unfold beatCount commandWords
  split <;> simp

/-- A well-formed command's first word asks for the data beats it has (30_encoding.md R77), and stands, with the
characters of those beats, for that command (30_encoding.md R72 to R74). -/
def Fields.Statement (i : Instr) : Prop :=
  i.wf = true →
    (dataBeats i).length = beatCount (commandWord i) ∧ commandOf (commandWord i) ((dataBeats i).map beatChar) = i

theorem Fields.nop : Fields.Statement .nop := fun _ => ⟨rfl, rfl⟩

theorem Fields.submit (r : Bool) (text : List Byte) : Fields.Statement (.submit r text) := by
  intro h
  have hl : text.length ≤ 65535 := by simpa [Instr.wf] using h
  refine ⟨?_, ?_⟩
  · rw [beatCount_eq, opField_submit, if_pos rfl, lengthField_submit, Nat.mod_eq_of_lt (by omega)]
    simp [dataBeats]
  · simp [commandOf, dataBeats, Function.comp_def]

theorem Fields.tick (t : BitVec 28) : Fields.Statement (.tick t) := by
  intro _
  rw [beatCount_eq, opField_tick]
  exact ⟨rfl, by simp [commandOf]⟩

theorem Fields.stop : Fields.Statement .stop := fun _ => ⟨rfl, rfl⟩

theorem Fields.interrupt : Fields.Statement .interrupt := fun _ => ⟨rfl, rfl⟩

theorem Fields.setdot (d : BitVec 16) : Fields.Statement (.setdot d) := by
  intro _
  rw [beatCount_eq, opField_setdot]
  exact ⟨rfl, by simp [commandOf]⟩

theorem Fields.reservedLow (op : BitVec 1) : Fields.Statement (.reservedLow op) := by
  unfold Fields.Statement
  revert op
  decide

theorem Fields.reservedHigh (op : BitVec 3) : Fields.Statement (.reservedHigh op) := by
  unfold Fields.Statement
  revert op
  decide

end Sys2Proof.Laws
end

