-- ==== Sys2Proof/Laws/Playback.lean ====
section
/-! SUPPORT. What the swap, the boundary, TICK and one step can do. -/

namespace Sys2Proof.Machine

/-! ### The swap and the boundary (41_playback.md R150 to R152) -/

@[simp] theorem State.swap_cfg (s : State) : s.swap.cfg = s.cfg := by simp [State.swap]

@[simp] theorem State.swap_liveSel (s : State) : s.swap.liveSel = !s.liveSel := by simp [State.swap]

@[simp] theorem State.swap_elapsed (s : State) : s.swap.elapsed = s.elapsed := by simp [State.swap]

@[simp] theorem State.swap_dot (s : State) : s.swap.dot = s.dot := by simp [State.swap]

@[simp] theorem State.swap_repeatFlag (s : State) : s.swap.repeatFlag = s.repeatNext := by simp [State.swap]

@[simp] theorem State.swap_repeatNext (s : State) : s.swap.repeatNext = false := by simp [State.swap]

@[simp] theorem State.swap_sig (s : State) : s.swap.sig = s.sig := by simp [State.swap]

@[simp] theorem State.swap_lastDiag (s : State) : s.swap.lastDiag = s.lastDiag := by simp [State.swap]

@[simp] theorem State.swap_enc (s : State) : s.swap.enc = s.enc := by simp [State.swap]

@[simp] theorem State.swap_trace (s : State) : s.swap.trace = s.trace := by simp [State.swap]

@[simp] theorem State.swap_port (s : State) : s.swap.port = s.port := by simp [State.swap]

@[simp] theorem State.swap_rst (s : State) : s.swap.rst = s.rst := by simp [State.swap]

/-- After a swap LIVE is the buffer that was NEXT. -/
@[simp] theorem State.swap_live (s : State) : s.swap.live = s.next := by
  simp [State.swap, State.next]

/-- After a swap NEXT is the buffer that was LIVE, its header zeroed. -/
@[simp] theorem State.swap_next (s : State) : s.swap.next = Memory.setLen s.live 0#32 := by
  simp [State.swap, State.live]

theorem State.boundary_of_repeat {s : State} (h : s.repeatFlag = true) : s.boundary = s.setElapsed 0#32 := by
  simp [State.boundary, h]

theorem State.boundary_of_not_repeat {s : State} (h : s.repeatFlag = false) :
    s.boundary = s.swap.setElapsed 0#32 := by
  simp [State.boundary, h]

/-! ### TICK (41_playback.md R146) -/

/-- The four things a TICK can do. -/
theorem execTick_cases (t : BitVec 28) (s : State) :
    (s.bothEmpty = true ∧ execTick t s = .next s) ∨
    (s.bothEmpty = false ∧ s.atBoundary t = false ∧
      execTick t s = .next ((s.setElapsed (s.accumulated t)).emitBit (s.tickIndex t))) ∨
    (s.bothEmpty = false ∧ s.atBoundary t = true ∧ s.repeatFlag = true ∧
      execTick t s = .next ((s.setElapsed 0#32).emitBit (boundaryReadIndex s.cfg.swapRead (s.tickIndex t)))) ∨
    (s.bothEmpty = false ∧ s.atBoundary t = true ∧ s.repeatFlag = false ∧
      execTick t s = .next
        ((s.swap.setElapsed 0#32).emitBit (boundaryReadIndex s.cfg.swapRead (s.tickIndex t)))) := by
  unfold execTick
  cases hE : s.bothEmpty with
  | true => exact .inl ⟨rfl, by simp⟩
  | false =>
    cases hB : s.atBoundary t with
    | false => exact .inr (.inl ⟨rfl, rfl, by simp⟩)
    | true =>
      cases hR : s.repeatFlag with
      | true =>
        refine .inr (.inr (.inl ⟨rfl, rfl, rfl, ?_⟩))
        simp [State.boundary, hR, State.setElapsed]
      | false =>
        refine .inr (.inr (.inr ⟨rfl, rfl, rfl, ?_⟩))
        have : (s.setElapsed (s.accumulated t)).boundary = s.swap.setElapsed 0#32 := by
          simp only [State.boundary, State.setElapsed_repeatFlag, hR, Bool.false_eq_true, if_false]
          cases hs : s.liveSel <;>
            simp [State.swap, State.setElapsed, State.setLiveSel, State.setRepeat, State.setRepeatNext, State.setNext,
              State.setBuf, State.next, State.buf, hs]
        simp [this]

/-- Neither boundary nor empty: the quotient is below Len(LIVE) (41_playback.md R150). -/
theorem State.atBoundary_false {s : State} {t : BitVec 28} (h : s.atBoundary t = false) :
    (s.tickIndex t).toNat < s.live.len.toNat := by
  simp only [State.atBoundary, decide_eq_false_iff_not, BitVec.le_def] at h
  omega

theorem State.bothEmpty_iff {s : State} : s.bothEmpty = true ↔ s.live.len = 0#32 ∧ s.next.len = 0#32 := by
  simp [State.bothEmpty]

/-- bit_index for a legal DOT (41_playback.md R149). -/
theorem bitIndex_toNat {elapsed : Word} {dot : BitVec 16} (h : dot ≠ 0#16) :
    (bitIndex elapsed dot).toNat = elapsed.toNat / dot.toNat := by
  rw [bitIndex, if_neg h, BitVec.toNat_udiv, BitVec.toNat_setWidth]
  congr 1
  exact Nat.mod_eq_of_lt (by omega)

theorem State.accumulated_toNat (s : State) (t : BitVec 28) : (s.accumulated t).toNat = tickElapsed s t := by
  unfold State.accumulated elapsedMs tickElapsed
  rw [BitVec.toNat_add, BitVec.toNat_setWidth, Nat.mod_eq_of_lt (show t.toNat < 2 ^ 32 by omega)]

theorem State.tickIndex_toNat {s : State} (h : s.dot ≠ 0#16) (t : BitVec 28) :
    (s.tickIndex t).toNat = tickQuotient s t := by
  unfold State.tickIndex tickQuotient
  rw [bitIndex_toNat h, State.accumulated_toNat]

theorem State.atBoundary_iff {s : State} (h : s.dot ≠ 0#16) (t : BitVec 28) :
    s.atBoundary t = true ↔ s.live.len.toNat ≤ tickQuotient s t := by
  simp [State.atBoundary, BitVec.le_def, State.tickIndex_toNat h]

/-! ### The playback state -/

theorem State.playState_idle_iff (s : State) : s.playState = .idle ↔ s.live.len = 0#32 ∧ s.next.len = 0#32 := by
  unfold State.playState
  split_ifs <;> simp_all

/-- The playback state depends on the two lengths and REPEAT only (10_state.md R29). -/
theorem State.playState_congr {s t : State} (h1 : t.live.len = s.live.len) (h2 : t.next.len = s.next.len)
    (h3 : t.repeatFlag = s.repeatFlag) : t.playState = s.playState := by
  unfold State.playState
  rw [h1, h2, h3]

/-! ### The invariant, by role instead of by number -/

theorem State.Inv.roles {s : State} (h : s.Inv) :
    (s.live.legalFor s.cfg = true ∧ s.next.legalFor s.cfg = true) ∧
      s.live.lenLegal s.cfg ∧ s.next.lenLegal s.cfg :=
  ⟨(State.buffers_iff s (·.legalFor s.cfg = true)).1 ⟨h.buf0, h.buf1⟩,
    (State.buffers_iff s (·.lenLegal s.cfg)).1 ⟨h.len0, h.len1⟩⟩

theorem Memory.legalFor_iff {p : Params} {m : Memory} :
    m.legalFor p = true ↔ m.wf = true ∧ Memory.below p.cap m = true := by
  simp [Memory.legalFor]

/-- Both buffers of the reset state are in the canonical form. -/
theorem State.reset_buffers_wf : State.reset.buf0.wf = true ∧ State.reset.buf1.wf = true := by decide

/-! ### exec and step -/

/-- Every command completes (60_exceptions.md R184, R188). -/
theorem exec_next (i : Instr) (s : State) : ∃ t, exec i s = .next t := by
  cases i with
  | tick t =>
    rcases execTick_cases t s with ⟨-, h⟩ | ⟨-, -, h⟩ | ⟨-, -, -, h⟩ | ⟨-, -, -, h⟩ <;> exact ⟨_, h⟩
  | _ => exact ⟨_, rfl⟩

/-- The three things a step can do: reset, wait, or one command. -/
theorem step_cases (s : State) :
    (∃ init, s.rst = some init ∧ step s = .next (s.afterReset init)) ∨
    (s.rst = none ∧ (∃ e, decode s.port = .error e) ∧ step s = .next s) ∨
    (s.rst = none ∧ ∃ i rest, decode s.port = .ok (i, rest) ∧ step s = exec i (s.setPort rest)) := by
  unfold step
  cases hr : s.rst with
  | some init => exact .inl ⟨init, rfl, rfl⟩
  | none =>
    cases hd : decode s.port with
    | error e => exact .inr (.inl ⟨rfl, ⟨e, rfl⟩, rfl⟩)
    | ok d => exact .inr (.inr ⟨rfl, d.1, d.2, rfl, rfl⟩)

end Sys2Proof.Machine
end

