-- ==== Sys2Proof/Tests/Slice0.lean ====
section
/-! SUPPORT. Tests of the model, their expected results taken from the spec's tables and vectors, and for every statement
with hypotheses a concrete state and operands that meet them. -/

namespace Sys2Proof.Tests

open Sys2Proof.Machine

/-! ### Small states -/

/-- "E" as the spec writes it: `00 00 00 10 08 00` (95_test_vectors.md TV-C15). -/
def bufE : Memory := [(3, 0x10#8), (4, 0x08#8)]

/-- (0, 0, 0, 0, 0, 16): PENDING (TV-U1). -/
def pendingE : State := { State.reset with buf1 := bufE }

/-- (1, 180, 0, 0, 16, 0): PLAYING. -/
def playingE : State := { State.reset with liveSel := true, buf1 := bufE, elapsed := 180#32 }

/-- (1, 180, 1, 0, 16, 0): REPEATING (TV-U3). -/
def repeatingE : State := { playingE with repeatFlag := true }

/-- CAP = 6, so BITCAP = 16, and BUF_INIT all 0xFF (PRG6). -/
def small : State :=
  State.resetWith { Params.default with cap := 6 }
    { buf0 := [(4, 0xFF#8), (5, 0xFF#8)], buf1 := [(4, 0xFF#8), (5, 0xFF#8)] }

/-- A check of the next state. -/
def holdsAfter (o : Host.Outcome State Fault Refusal) (f : State → Bool) : Bool :=
  match o with
  | .next t => f t
  | .fault _ => false
  | .refused _ => false

/-- The first `n` bytes of a buffer. -/
def bytes (m : Memory) (n : Nat) : List Byte := (List.range n).map fun a => m.read a

/-- The ASCII digits and capital letters, in the order of the Code Table. -/
def alphanumerics : List Byte :=
  (List.range 10).map (fun k => BitVec.ofNat 8 (0x30 + k)) ++ (List.range 26).map fun k => BitVec.ofNat 8 (0x41 + k)

/-- A unit pattern as a number, first unit most significant. -/
def patternValue (us : List Bool) : Nat := us.foldl (fun n b => 2 * n + if b then 1 else 0) 0

/-! ### WellFormed -/

/-- A SUBMIT of 65536 characters has no encoding (30_encoding.md R73). -/
theorem test_wf_refuses_long_text : (Instr.submit false (List.replicate 65536 0x45#8)).wf = false := by
  rw [Instr.wf, List.length_replicate]
  decide

/-- One of 65535 has. -/
theorem test_wf_accepts_longest_text : (Instr.submit true (List.replicate 65535 0x45#8)).wf = true := by
  rw [Instr.wf, List.length_replicate]
  decide

/-! ### Decode: words written out bit by bit from 30_encoding.md R71 to R74 -/

theorem test_decode_nop : decode [0b00000000000000000000000000000000#32] = .ok (.nop, []) := by decide

theorem test_decode_submit :
    decode [0b00010000000000000000000000000010#32, 0b00000000000000000000000001000101#32,
      0b00100000000000000000000000000001#32, 0b00110000000000000000000000000000#32] =
    .ok (.submit false [0x45#8, 0x01#8], [0x30000000#32]) := by decide

theorem test_decode_submit_r :
    decode [0b00011000000000000000000000000001#32, 0b00000000000000000000000001010100#32] =
    .ok (.submit true [0x54#8], []) := by decide

theorem test_decode_submit_incomplete :
    decode [0b00010000000000000000000000000010#32, 0b00000000000000000000000001000101#32] =
    .error (.beatsMissing 1) := by decide

theorem test_decode_tick : decode [0b00100000000000000000000000111100#32] = .ok (.tick 60#28, []) := by decide

theorem test_decode_tick_largest :
    decode [0b00101111111111111111111111111111#32] = .ok (.tick 0xFFFFFFF#28, []) := by decide

theorem test_decode_stop : decode [0b00110000000000000000000000000000#32] = .ok (.stop, []) := by decide

theorem test_decode_interrupt : decode [0b01000000000000000000000000000000#32] = .ok (.interrupt, []) := by decide

theorem test_decode_setdot : decode [0b01010000000000000000000001100100#32] = .ok (.setdot 100#16, []) := by decide

theorem test_decode_reservedLow :
    decode [0b01110000000000000000000000000001#32] = .ok (.reservedLow 1#1, []) := by decide

theorem test_decode_reservedHigh :
    decode [0b11110000000000001111111111111111#32] = .ok (.reservedHigh 7#3, []) := by decide

/-- TV-N4: reserved bits are ignored. -/
theorem test_decode_stop_reserved_bits : decode [0x3FFFFFFF#32] = .ok (.stop, []) := by decide

/-- TV-N5: bits 31:8 of a beat are ignored. -/
theorem test_decode_beat_reserved_bits :
    decode [0x10000001#32, 0x20000045#32] = .ok (.submit false [0x45#8], []) := by decide

/-- No word belongs to two rows of the opcode table. -/
theorem test_opcodeRows_disjoint :
    opcodeRows.Pairwise fun a b => (a.value ^^^ b.value) &&& a.mask &&& b.mask ≠ 0#32 := by decide

/-- Every OP belongs to exactly one row, with ignored bits set too. -/
theorem test_opcodeRows_cover :
    ∀ op : BitVec 4, ((opcodeRows.filter fun row => row.covers (op ++ 0xFFFFFFF#28)).length = 1) := by decide

/-- The host's numbering: the first word is the least significant, and missing beats are words of zeros. -/
theorem test_decodeTableWord :
    decodeTableWord 32 0x10000002 = some (.submit false [0#8, 0#8]) ∧
    decodeTableWord 64 0x4510000001 = some (.submit false [0x45#8]) ∧
    decodeTableWord 32 0x40000000 = some .interrupt := by decide

/-! ### The Code Table (40_encoder.md R100's columns "units" and "unit pattern") -/

/-- The units column, '0'..'9' then 'A'..'Z'. -/
theorem test_code_table_units :
    alphanumerics.map (charCost Params.default) =
      [22, 20, 18, 16, 14, 12, 14, 16, 18, 20] ++
      [8, 12, 14, 10, 4, 12, 12, 10, 6, 16, 12, 12, 10] ++
      [8, 14, 14, 16, 10, 8, 6, 10, 12, 12, 14, 16, 14] := by decide +kernel

/-- The unit pattern column, as numbers. -/
theorem test_code_table_patterns :
    alphanumerics.map (fun c => patternValue (charUnits Params.default c)) =
      [0b0001110111011101110111, 0b00010111011101110111, 0b000101011101110111, 0b0001010101110111,
       0b00010101010111, 0b000101010101, 0b00011101010101, 0b0001110111010101, 0b000111011101110101,
       0b00011101110111011101] ++
      [0b00010111, 0b000111010101, 0b00011101011101, 0b0001110101, 0b0001, 0b000101011101, 0b000111011101,
       0b0001010101, 0b000101, 0b0001011101110111, 0b000111010111, 0b000101110101, 0b0001110111] ++
      [0b00011101, 0b00011101110111, 0b00010111011101, 0b0001110111010111, 0b0001011101, 0b00010101, 0b000111,
       0b0001010111, 0b000101010111, 0b000101110111, 0b00011101010111, 0b0001110101110111, 0b00011101110101] := by
  decide +kernel

theorem test_default_params_legal : Params.default.legal = true := by decide

/-! ### SUBMIT -/

/-- TV-E8: "hello world" gives these bytes of NEXT and no diagnostic. -/
theorem test_submit_hello_world :
    holdsAfter
      (exec (.submit false [0x68#8, 0x65#8, 0x6C#8, 0x6C#8, 0x6F#8, 0x20#8, 0x77#8, 0x6F#8, 0x72#8, 0x6C#8, 0x64#8])
        State.reset)
      (fun t => decide (bytes t.next 21 =
        [0x00#8, 0x00#8, 0x00#8, 0x7E#8, 0xA8#8, 0x22#8, 0xBA#8, 0xA2#8, 0x2B#8, 0xEE#8, 0x0E#8, 0xE8#8, 0x8E#8,
         0xBB#8, 0xA3#8, 0x8B#8, 0xAE#8, 0xB8#8, 0x02#8, 0x00#8, 0x00#8] ∧ t.trace = [])) = true := by
  decide +kernel

/-- TV-S3: "EE" at CAP = 6 overflows on the third trailer run: DIAG(2), header 0, content `88 00`. -/
theorem test_submit_overflow :
    holdsAfter (exec (.submit true [0x45#8, 0x45#8]) small)
      (fun t => decide (bytes t.next 6 = [0#8, 0#8, 0#8, 0#8, 0x88#8, 0x00#8] ∧ t.lastDiag = 2#2 ∧
        t.trace = [.diag .encodingOverflow] ∧ t.repeatNext = true)) = true := by decide +kernel

/-- TV-E9 at CAP = 12: "SOS!" keeps the stale 0xFF past S-O-S. -/
theorem test_encode_keeps_stale :
    bytes (encodeText { Params.default with cap := 12 }
        ((List.range 8).map fun k => (4 + k, 0xFF#8)) [0x53#8, 0x4F#8, 0x53#8, 0x21#8]).1 10 =
      [0#8, 0#8, 0#8, 0#8, 0xA8#8, 0xB8#8, 0x3B#8, 0x2A#8, 0xFF#8, 0xFF#8] := by decide +kernel

/-- TV-C42: "E:E" under EMPTY_ENTRY. -/
theorem test_encode_gap_character :
    bytes (encodeText { Params.default with gapChar := .emptyEntry } [] [0x45#8, 0x3A#8, 0x45#8]).1 7 =
      [0#8, 0#8, 0#8, 0x16#8, 0x08#8, 0x02#8, 0x00#8] := by decide +kernel

/-! ### TICK -/

/-- TV-I3: after INTERRUPT at ELAPSED 540, with "PARIS" queued, TICK 60 swaps and emits PARIS's bit 10, which is 1. -/
theorem test_tick_swap_reads_old_index :
    holdsAfter
      (exec (.tick 60#28)
        { State.reset with
          liveSel := true, elapsed := 540#32,
          buf0 := [(3, 0x3A#8), (4, 0xE8#8), (5, 0x2E#8), (6, 0x3A#8), (7, 0xBA#8), (8, 0x28#8), (9, 0x2A#8)] })
      (fun t => decide (t.liveSel = false ∧ t.elapsed = 0#32 ∧ t.sig = true ∧ t.trace = [.sig true] ∧
        t.playState = .playing)) = true := by decide +kernel

/-- TV-P12: ELAPSED wraps modulo 2^32. -/
theorem test_tick_wraps :
    holdsAfter (exec (.tick 60#28) { playingE with elapsed := 0xFFFFFFE2#32 })
      (fun t => decide (t.elapsed = 30#32 ∧ t.liveSel = true ∧ t.trace = [.sig false])) = true := by decide +kernel

/-! ### STOP, INTERRUPT, SETDOT, NOP and the reserved words -/

/-- TV-T1. -/
theorem test_stop :
    holdsAfter (exec .stop repeatingE)
      (fun t => decide (t.repeatFlag = false ∧ t.playState = .playing ∧ t.elapsed = 180#32)) = true := by decide

/-- TV-I1, on "E": the header is zeroed, the content and ELAPSED stay. -/
theorem test_interrupt :
    holdsAfter (exec .interrupt repeatingE)
      (fun t => decide (t.buf1 = [(4, 0x08#8)] ∧ t.elapsed = 180#32 ∧ t.repeatFlag = false ∧ t.playState = .idle)) =
    true := by decide

/-- TV-D1. -/
theorem test_setdot : holdsAfter (exec (.setdot 100#16) State.reset) (fun t => decide (t.dot = 100#16)) = true := by
  decide

/-- TV-D2. -/
theorem test_setdot_zero : holdsAfter (exec (.setdot 0#16) State.reset) (fun t => decide (t.dot = 60#16)) = true := by
  decide

/-- TV-N1. -/
theorem test_nop : holdsAfter (exec .nop playingE) (fun t => decide (t = playingE)) = true := by decide

/-- TV-N2. -/
theorem test_reservedLow :
    holdsAfter (exec (.reservedLow 0#1) playingE)
      (fun t => decide (t.lastDiag = 3#2 ∧ t.trace = [.diag .illegalCommand] ∧ t.sig = false)) = true := by decide

/-- TV-N3. -/
theorem test_reservedHigh :
    holdsAfter (exec (.reservedHigh 7#3) playingE)
      (fun t => decide (t.lastDiag = 3#2 ∧ t.elapsed = 180#32)) = true := by decide

/-! ### Steps -/

/-- TV-N5 as a step: the command's words are taken, and the next word stays. -/
theorem test_step_takes_the_command :
    holdsAfter (step (State.reset.setPort [0x10000000#32, 0x30000000#32]))
      (fun t => decide (t.port = [0x30000000#32] ∧ t.next.len = 12#32 ∧ t.statusWord = 0x00000010#32)) = true := by
  decide +kernel

/-- R202: a reset while a SUBMIT waits for its beat abandons it; until then BUSY is 1. -/
theorem test_reset_abandons_submit :
    (playingE.setPort [0x10000001#32]).statusWord = 0x00000122#32 ∧
    holdsAfter (step ((playingE.setPort [0x10000001#32]).setRst (some ⟨[], []⟩)))
      (fun t => decide (t = State.reset)) = true := by decide

/-- The word the host places is what the next step executes. -/
theorem test_withFetchWord :
    holdsAfter (step (State.reset.withFetchWord 32 0x50000064)) (fun t => decide (t.dot = 100#16)) = true ∧
    holdsAfter (step (State.reset.withFetchWord 32 0x60000000)) (fun t => decide (t.lastDiag = 3#2)) = true := by
  decide

/-! ### The assembler (30_encoding.md R82, R83) -/

/-- `LOOP "A"   ; c` gives `18000001 00000041` (PRG2). -/
theorem test_assemble_loop :
    assembleSource (asciiBytes ['L', 'O', 'O', 'P', ' '] ++ [0x22#8, 0x41#8, 0x22#8] ++ asciiBytes [' ', ';', ' ', 'c']) =
      some [0x18000001#32, 0x00000041#32] := by decide +kernel

/-- `WAIT 3, 60` gives three `2000003C` (PRG3); `.word 0xF000FFFF` is itself; TICK 2^28 is rejected. -/
theorem test_assemble_numbers :
    assembleSource (asciiBytes ['W', 'A', 'I', 'T', ' ', '3', ',', ' ', '6', '0']) =
      some [0x2000003C#32, 0x2000003C#32, 0x2000003C#32] ∧
    assembleSource (asciiBytes ['.', 'w', 'o', 'r', 'd', ' ', '0', 'x', 'F', '0', '0', '0', 'F', 'F', 'F', 'F']) =
      some [0xF000FFFF#32] ∧
    assembleSource (asciiBytes ['T', 'I', 'C', 'K', ' ', '2', '6', '8', '4', '3', '5', '4', '5', '6']) = none := by
  decide +kernel

/-! ### States that meet the statements' hypotheses -/

theorem inv_pendingE : pendingE.Inv :=
  ⟨by decide, by decide, by decide, by decide, by decide, by decide, by decide, by decide, by decide,
    fun _ h => by cases h⟩

theorem inv_playingE : playingE.Inv :=
  ⟨by decide, by decide, by decide, by decide, by decide, by decide, by decide, by decide, by decide,
    fun _ h => by cases h⟩

theorem inv_repeatingE : repeatingE.Inv :=
  ⟨by decide, by decide, by decide, by decide, by decide, by decide, by decide, by decide, by decide,
    fun _ h => by cases h⟩

theorem witness_DecodeOfEncodeGivesCommandBack : (Instr.submit true [0x53#8, 0x4F#8]).wf = true := by decide

theorem witness_EncodeOfDecodeClearsReservedBits :
    decode [0x17FF0001#32, 0xFFFFFF45#32, 0x12345678#32] = .ok (.submit false [0x45#8], [0x12345678#32]) := by decide

theorem witness_ReservedBitsAreIgnored :
    0x17FF0001#32 &&& usedBits (opField 0x17FF0001#32) = 0x10000001#32 &&& usedBits (opField 0x17FF0001#32) ∧
    [0xFFFFFF45#32].map (fun b => b &&& 0x000000FF#32) = [0x00000045#32].map (fun b => b &&& 0x000000FF#32) ∧
    [0xFFFFFF45#32].length = beatCount 0x17FF0001#32 ∧ State.reset.rst = none := by decide

/-- Exactly enough words, and one too few. -/
theorem witness_FirstWordGivesCommandLength :
    commandWords 0x10000002#32 = [0x45#32, 0x45#32].length + 1 ∧ [0x45#32].length + 1 < commandWords 0x10000002#32 := by
  decide

theorem witness_WorkedEncodingsDecode :
    6 ≤ ((0x60000000#32).extractLsb' 28 4).toNat ∧ ((0x7FFFFFFF#32).extractLsb' 28 4).toNat ≤ 7 ∧
    8 ≤ ((0x80000000#32).extractLsb' 28 4).toNat ∧ ((0x5FFFFFFF#32).extractLsb' 28 4).toNat < 6 := by decide

/-- The assembler's ranges at their ends. -/
theorem witness_AssemblerLinesAndPseudoInstructions :
    assemble (.tick (2 ^ 28 - 1)) = some [0x2FFFFFFF#32] ∧ assemble (.tick (2 ^ 28)) = none ∧
    assemble (.setdot 65535) = some [0x5000FFFF#32] ∧ assemble (.setdot 65536) = none ∧
    assemble (.word (2 ^ 32 - 1)) = some [0xFFFFFFFF#32] ∧ assemble (.word (2 ^ 32)) = none ∧
    assemble (.wait 0 60) = some [] := by decide +kernel

theorem witness_StepRunsDecodedCommand :
    (playingE.setPort [0x2000003C#32]).rst = none ∧
    decode (playingE.setPort [0x2000003C#32]).port = .ok (.tick 60#28, []) := by decide

theorem witness_StepRunsPresentedCommand : (Instr.tick 60#28).wf = true ∧ playingE.rst = none := by decide

/-- Nothing presented, and all beats but one. -/
theorem witness_StepWaitsForWholeCommand :
    playingE.rst = none ∧ playingE.port = [] ∧ (0x10000001#32).extractLsb' 28 4 = 0x1#4 ∧
    ([] : List Word).length < ((0x10000001#32).extractLsb' 0 16).toNat := by decide

theorem witness_ResetValues :
    BufInit.legal Params.default { buf0 := [(4, 0xFF#8)], buf1 := [(1023, 0x01#8)] } = true ∧
    BufInit.legal Params.default { buf0 := [(3, 0xFF#8)], buf1 := [] } = false ∧
    BufInit.legal Params.default { buf0 := [], buf1 := [(1024, 0x01#8)] } = false := by decide

/-- A reset with a whole command on the port, and one with an incomplete SUBMIT. -/
theorem witness_ResetInputResets :
    (playingE.setRst (some ⟨[], []⟩)).rst = some ⟨[], []⟩ ∧
    decode ((playingE.setRst (some ⟨[], []⟩)).setPort [0x30000000#32]).port = .ok (.stop, []) ∧
    decode ((playingE.setRst (some ⟨[], []⟩)).setPort [0x10000001#32]).port = .error (.beatsMissing 1) := by decide

theorem witness_ResetMeetsInvariant :
    { Params.default with cap := 5 }.legal = true ∧ { Params.default with cap := 4 }.legal = false ∧
    { Params.default with dotReset := 0#16 }.legal = false ∧
    BufInit.legal { Params.default with cap := 5 } { buf0 := [(4, 0xFF#8)], buf1 := [] } = true := by decide

theorem witness_StepKeepsInvariant : playingE.Inv ∧ ∃ t, step playingE = .next t := ⟨inv_playingE, _, rfl⟩

theorem witness_BusyOnlyDuringSubmit : playingE.Inv ∧ pendingE.Inv := ⟨inv_playingE, inv_pendingE⟩

theorem witness_HeaderIsBigEndian : Memory.wf bufE = true := by decide

/-- The last content bit, and the first index past it (TV-B11, TV-B12). -/
theorem witness_BitReaderReadsContentBit :
    (8159#32).toNat < 8 * (Params.default.cap - 4) ∧ 8 * (Params.default.cap - 4) ≤ (8160#32).toNat ∧
    Memory.wf bufE = true := by decide

/-- TV-B6 and TV-B7: a run that ends at BITCAP fits, one that ends past it does not. -/
theorem witness_AppendRunWritesTheRun :
    Memory.wf small.buf0 = true ∧ small.cfg.bitcap < (14#32).toNat + 3 ∧ (13#32).toNat + 3 ≤ small.cfg.bitcap := by decide

/-- Every clause's range at its ends: the classes of the bytes around them (30_encoding.md R81). -/
theorem witness_CharacterClasses :
    [0x1F#8, 0x20#8, 0x21#8, 0x2F#8, 0x3A#8, 0x40#8, 0x5B#8, 0x60#8, 0x7B#8].map (classOf Params.default) =
      [.invalid, .space, .invalid, .invalid, .invalid, .invalid, .invalid, .invalid, .invalid] ∧
    [0x30#8, 0x39#8, 0x41#8, 0x5A#8, 0x61#8, 0x7A#8].map (fun c => invalidChar Params.default c) =
      [false, false, false, false, false, false] ∧
    classOf { Params.default with gapChar := .emptyEntry } 0x40#8 = .symbol [] := by decide

/-- The LUT's groups at their ends. -/
theorem witness_LutHoldsTheCodeTable :
    Params.default.legal = true ∧ Params.default.lut 9 = [.dash, .dash, .dash, .dash, .dot] ∧
    Params.default.lut 10 = [] ∧ Params.default.lut 16 = [] ∧ Params.default.lut 17 = [.dot, .dash] ∧
    Params.default.lut 42 = [.dash, .dash, .dot, .dot] := by decide

/-- A letter that ends exactly at BITCAP. -/
theorem witness_UnitCostPerClass :
    small.cfg.legal = true ∧ (Encoder.start 1).fail = none ∧ classOf small.cfg 0x51#8 ≠ .invalid ∧
    (Encoder.start 1).ptr.toNat + charCost small.cfg 0x51#8 = small.cfg.bitcap := by decide

/-- TV-E11: exactly BITCAP fits; TV-S3: more does not; TV-U5's kind: an INVALID character after a valid one. -/
theorem witness_SubmitResult :
    small.cfg.legal = true ∧ small.next.wf = true ∧ textCost small.cfg [0x20#8] + 12 = small.cfg.bitcap ∧
    (∀ c ∈ [0x20#8], classOf small.cfg c ≠ .invalid) ∧ small.cfg.bitcap < textCost small.cfg [0x45#8, 0x45#8] + 12 ∧
    (∀ c ∈ [0x45#8, 0x45#8], classOf small.cfg c ≠ .invalid) ∧ classOf small.cfg 0x21#8 = .invalid ∧
    textCost small.cfg [0x45#8, 0x45#8, 0x45#8, 0x45#8] = small.cfg.bitcap ∧
    small.cfg.bitcap < textCost small.cfg [0x30#8] := by decide

theorem witness_SubmitWritesTheMessage :
    small.cfg.legal = true ∧ small.next.wf = true ∧ (∀ c ∈ [0x45#8], classOf small.cfg c ≠ .invalid) ∧
    textCost small.cfg [0x45#8] + 12 ≤ small.cfg.bitcap := by decide

theorem witness_FailedSubmitKeepsStaleContent :
    small.cfg.legal = true ∧ small.next.wf = true ∧ expectedResult small.cfg [0x45#8, 0x45#8] = some .encodingOverflow ∧
    (writtenUnits small.cfg [0x45#8, 0x45#8]).length = 16 := by decide

theorem witness_SubmitFrame : small.cfg.legal = true ∧ small.next.wf = true := by decide

theorem witness_SubmitIgnoresOldNext :
    State.reset.cfg.legal = true ∧ Memory.wf bufE = true ∧ Memory.wf [(4, 0xFF#8)] = true := by decide

theorem witness_TickOnEmptyBuffersDoesNothing : State.reset.live.len = 0#32 ∧ State.reset.next.len = 0#32 := by decide

/-- The last index before the boundary. -/
theorem witness_TickBeforeBoundary :
    playingE.dot ≠ 0#16 ∧ tickQuotient playingE 779#28 < playingE.live.len.toNat ∧ tickQuotient playingE 779#28 = 15 := by
  decide

/-- The first index at the boundary. -/
theorem witness_TickReplays :
    repeatingE.dot ≠ 0#16 ∧ ¬ (repeatingE.live.len = 0#32 ∧ repeatingE.next.len = 0#32) ∧
    repeatingE.live.len.toNat = tickQuotient repeatingE 780#28 ∧ repeatingE.repeatFlag = true := by decide

theorem witness_TickSwaps :
    playingE.dot ≠ 0#16 ∧ playingE.live.wf = true ∧ ¬ (playingE.live.len = 0#32 ∧ playingE.next.len = 0#32) ∧
    playingE.live.len.toNat = tickQuotient playingE 780#28 ∧ playingE.repeatFlag = false ∧ playingE.next.len = 0#32 := by
  decide

theorem witness_TickEmitsExactlyOnce : ¬ (pendingE.live.len = 0#32 ∧ pendingE.next.len = 0#32) := by decide

theorem witness_PoliciesAgreeOffBoundary :
    playingE.dot ≠ 0#16 ∧ tickQuotient playingE 60#28 < playingE.live.len.toNat := by decide

/-- TV-P8: TICK 489900 in PENDING. -/
theorem witness_ReadPastCapacityEmitsZero :
    pendingE.Inv ∧ pendingE.playState ≠ .idle ∧ pendingE.cfg.swapRead = .quirk ∧
    pendingE.cfg.bitcap ≤ tickQuotient pendingE 489900#28 :=
  ⟨inv_pendingE, by decide, by decide, by decide⟩

theorem witness_TickInPendingSwaps : pendingE.Inv ∧ pendingE.playState = .pending := ⟨inv_pendingE, by decide⟩

theorem witness_StopClearsRepeat : repeatingE.playState = .repeating ∧ playingE.playState ≠ .repeating := by decide

theorem witness_InterruptEmptiesLive : playingE.live.wf = true := by decide

theorem witness_SetdotWritesLegalValuesOnly :
    (1#16) ≠ 0#16 ∧ (0xFFFF#16) ≠ 0#16 ∧ opField 0x5FFF003C#32 = 0x5#4 := by decide

theorem witness_ReservedWordsReportIllegalCommand :
    6 ≤ (opField 0x6000FFFF#32).toNat ∧ ¬ 6 ≤ (opField 0x5FFFFFFF#32).toNat := by decide

theorem witness_WriteMatrix :
    playingE.buf0.wf = true ∧ playingE.buf1.wf = true ∧ exec .stop playingE = .next (playingE.setRepeat false) :=
  ⟨by decide, by decide, rfl⟩

theorem witness_AtMostOneEventPerCommand : exec .stop playingE = .next (playingE.setRepeat false) := rfl

theorem witness_PlaybackTransitionTable : playingE.Inv ∧ pendingE.Inv ∧ repeatingE.Inv :=
  ⟨inv_playingE, inv_pendingE, inv_repeatingE⟩

theorem witness_PlaybackStateFromLengths :
    (State.reset.live.len = 0#32 ∧ State.reset.next.len = 0#32) ∧
    (pendingE.live.len = 0#32 ∧ pendingE.next.len ≠ 0#32) ∧
    (playingE.live.len ≠ 0#32 ∧ playingE.repeatFlag = false) ∧
    repeatingE.live.len ≠ 0#32 ∧ repeatingE.repeatFlag = true := by decide

/-- TV-U3: from REPEATING "E", SUBMIT.R "E!"; its boundary tick. -/
theorem witness_FailedSubmitEndsRepetition :
    repeatingE.Inv ∧ repeatingE.playState = .repeating ∧
    expectedResult repeatingE.cfg [0x45#8, 0x21#8] = some .invalidCharacter ∧
    repeatingE.live.len.toNat ≤ tickQuotient repeatingE 780#28 :=
  ⟨inv_repeatingE, by decide, by decide, by decide⟩

theorem witness_InterruptThenTickIsSilent : playingE.live.wf = true ∧ playingE.next.len = 0#32 := by decide

end Sys2Proof.Tests
end

section
/-! The rules of 10_state.md: STATUS and STATE, the reset values, the invariant and its preservation by every step, the
write matrix, and the events of one command. -/

namespace Sys2Proof.Machine

open Sys2Proof.Laws

/-! ### STATUS and STATE (10_state.md R29, R30) -/

theorem State.statusWord_state (s : State) : s.statusWord.extractLsb' 4 2 = s.playState.code := by
  simp only [State.statusWord, BitVec.extractLsb'_append_eq_of_le, Nat.reduceLeDiff, Nat.reduceSub]
  exact extractLsb'_append_low _ _

theorem State.statusWord_lastDiag (s : State) : s.statusWord.extractLsb' 6 2 = s.lastDiag := by
  simp only [State.statusWord, BitVec.extractLsb'_append_eq_of_le, Nat.reduceLeDiff, Nat.reduceSub]
  exact extractLsb'_append_low _ _

theorem State.statusWord_reserved (s : State) : s.statusWord.extractLsb' 9 23 = 0#23 := by
  simp only [State.statusWord, BitVec.extractLsb'_append_eq_of_le, Nat.reduceLeDiff, Nat.reduceSub]
  rfl

theorem State.statusWord_busy (s : State) : s.statusWord.getLsbD 8 = s.busy := by
  simp only [State.statusWord, BitVec.getLsbD_append]
  simp

/-- The four flags are STATUS's lowest bits. -/
theorem State.statusWord_flags (s : State) :
    s.statusWord.getLsbD 0 = s.sig ∧ s.statusWord.getLsbD 1 = s.liveSel ∧ s.statusWord.getLsbD 2 = s.repeatFlag ∧
      s.statusWord.getLsbD 3 = s.repeatNext := by
  simp only [State.statusWord, BitVec.getLsbD_append]
  simp

/-- Settles O46: each field is one part of the concatenation that STATUS is. -/
theorem statusWordFields : Obligations.StatusWordFields := by
  intro s
  obtain ⟨hsig, hsel, hrep, hnext⟩ := s.statusWord_flags
  refine ⟨hsig, hsel, hrep, hnext, ?_, s.statusWord_lastDiag, s.statusWord_busy, s.statusWord_reserved⟩
  rw [State.statusWord_state]
  cases s.playState <;> rfl

/-- Settles O45: the definition's branches, one by one. -/
theorem playbackStateFromLengths : Obligations.PlaybackStateFromLengths := by
  intro s
  refine ⟨fun hl hn => ?_, fun hl hn => ?_, fun hl hr => ?_, fun hl hr => ?_⟩
  · rw [State.playState, if_pos hl, if_pos hn]
  · rw [State.playState, if_pos hl, if_neg hn]
  · rw [State.playState, if_neg hl, hr, if_neg Bool.false_ne_true]
  · rw [State.playState, if_neg hl, if_pos hr]

/-- Beats are awaited exactly when the port holds the first word of a command and too few words after it. -/
theorem State.awaitingBeats_iff (s : State) :
    s.awaitingBeats = true ↔ ∃ w beats, s.port = w :: beats ∧ beats.length < beatCount w := by
  unfold State.awaitingBeats
  cases hp : s.port with
  | nil => simp [decode]
  | cons w beats =>
    rw [decode_cons]
    split_ifs with h <;> simpa using h

/-- Only a SUBMIT has beats to wait for (30_encoding.md R73, R77). -/
theorem lt_beatCount_iff (n : Nat) (w : Word) : n < beatCount w ↔ opField w = 0x1#4 ∧ n < lengthField w := by
  rw [beatCount_eq]
  split_ifs with h <;> simp [h]

/-- Settles O15: between commands the Encoder has no registers, so BUSY is the wait for data beats. -/
theorem busyOnlyDuringSubmit : Obligations.BusyOnlyDuringSubmit := by
  intro s hs
  have hbusy : s.busy = s.awaitingBeats := by simp [State.busy, hs.enc]
  simp only [State.statusWord_busy, hbusy, State.awaitingBeats_iff, lt_beatCount_iff]
  rfl

/-! ### The reset values (10_state.md R36) -/

/-- The parts of a legal BUF_INIT (00_scope.md R8). -/
theorem BufInit.legal_iff {p : Params} {init : BufInit} :
    init.legal p = true ↔
      (Memory.wfFrom 4 init.buf0 = true ∧ Memory.below p.cap init.buf0 = true) ∧
        Memory.wfFrom 4 init.buf1 = true ∧ Memory.below p.cap init.buf1 = true := by
  simp [BufInit.legal, and_assoc]

theorem State.resetWith_busy (p : Params) (init : BufInit) : (State.resetWith p init).busy = false := rfl

/-- A legal BUF_INIT leaves both lengths 0, so the block is IDLE (10_state.md R29). -/
theorem State.resetWith_playState {p : Params} {init : BufInit} (h : init.legal p = true) :
    (State.resetWith p init).playState = .idle := by
  obtain ⟨⟨h0, -⟩, h1, -⟩ := BufInit.legal_iff.1 h
  exact (State.playState_idle_iff _).2 ⟨Memory.len_of_wfFrom h0, Memory.len_of_wfFrom h1⟩

/-- STATUS is 0 when every field of it is (10_state.md R30). -/
theorem State.resetWith_statusWord {p : Params} {init : BufInit} (h : init.legal p = true) :
    (State.resetWith p init).statusWord = 0#32 := by
  rw [State.statusWord, State.resetWith_busy, State.resetWith_playState h]
  simp only [State.resetWith, PlayState.code]
  decide

/-- Settles O11: the registers are those `resetWith` lists; the headers are not among BUF_INIT's addresses. -/
theorem resetValues : Obligations.ResetValues := by
  refine ⟨fun p init h => ?_, rfl⟩
  obtain ⟨⟨h0, -⟩, h1, -⟩ := BufInit.legal_iff.1 h
  exact ⟨Memory.len_of_wfFrom h0, Memory.len_of_wfFrom h1,
    fun a ha => ⟨Memory.read_of_lt h0 ha, Memory.read_of_lt h1 ha⟩, fun a _ => ⟨rfl, rfl⟩,
    rfl, rfl, rfl, rfl, rfl, rfl, rfl, rfl, rfl, rfl, rfl,
    State.resetWith_playState h, State.resetWith_statusWord h⟩

/-! ### One buffer under the invariant -/

/-- What the invariant asks of one buffer: its bytes and its length (10_state.md R39, 20_memory.md R50). -/
structure Memory.Fits (p : Params) (m : Memory) : Prop where
  legal : m.legalFor p = true
  len : m.lenLegal p

/-- SetLen(b, 0) keeps a buffer legal: 0 is a legal length. -/
theorem Memory.Fits.setLen_zero {p : Params} {m : Memory} (hp : p.legal = true) (h : m.Fits p) :
    Memory.Fits p (Memory.setLen m 0#32) := by
  obtain ⟨hcap, -, -⟩ := Params.legal_parts hp
  obtain ⟨hwf, hbelow⟩ := Memory.legalFor_iff.1 h.legal
  refine ⟨Memory.legalFor_iff.2 ⟨Memory.wf_setLen hwf _, Memory.below_setLen hbelow (by omega) _⟩, ?_⟩
  simp [Memory.lenLegal, Memory.len_setLen hwf]

/-- A buffer of content bytes only is legal, its length being 0. -/
theorem Memory.Fits.of_content {p : Params} {m : Memory} (hwf : Memory.wfFrom 4 m = true)
    (hbelow : Memory.below p.cap m = true) : m.Fits p := by
  refine ⟨Memory.legalFor_iff.2 ⟨Memory.wfFrom_mono (Nat.zero_le 4) hwf, hbelow⟩, ?_⟩
  simp [Memory.lenLegal, Memory.len_of_wfFrom hwf]

/-- Encode leaves a legal buffer: on success the length counts the trailer's 12 units, on failure it is 0. -/
theorem Memory.Fits.encodeText {p : Params} {m : Memory} (hp : p.legal = true) (h : m.Fits p) (text : List Byte) :
    Memory.Fits p (encodeText p m text).1 := by
  obtain ⟨hcap, hbit, -⟩ := Params.legal_parts hp
  obtain ⟨hwf, hbelow⟩ := Memory.legalFor_iff.1 h.legal
  have hres := encodeText_result text hbit hwf
  refine ⟨Memory.legalFor_iff.2 ⟨hres.wf, hres.below hcap hbelow⟩, ?_⟩
  have hlen := hres.len
  by_cases hok : expectedResult p text = none
  · obtain ⟨hunits, hcost⟩ := writtenUnits_of_success hok
    have hfits := hres.fits
    rw [if_pos hok] at hlen
    rw [hunits] at hlen hfits
    exact ⟨by omega, .inr (by omega)⟩
  · rw [if_neg hok] at hlen
    exact ⟨by omega, .inl (BitVec.eq_of_toNat_eq hlen)⟩

/-! ### The invariant, built from the two roles -/

theorem State.Inv.live_fits {s : State} (h : s.Inv) : s.live.Fits s.cfg :=
  let ⟨⟨hlegal, _⟩, hlen, _⟩ := h.roles
  ⟨hlegal, hlen⟩

theorem State.Inv.next_fits {s : State} (h : s.Inv) : s.next.Fits s.cfg :=
  let ⟨⟨_, hlegal⟩, _, hlen⟩ := h.roles
  ⟨hlegal, hlen⟩

/-- The invariant from legal LIVE and NEXT buffers, whichever of the two is BUF[0]. -/
theorem State.Inv.of_roles {s : State} (params : s.cfg.legal = true) (live : s.live.Fits s.cfg)
    (next : s.next.Fits s.cfg) (dot : s.dot ≠ 0#16)
    (pending : s.live.len = 0#32 → s.next.len ≠ 0#32 → s.repeatFlag = false)
    (elapsed : s.elapsed.toNat < s.cfg.bitcap * 65535) (enc : s.enc = none)
    (rst : ∀ init, s.rst = some init → init.legal s.cfg = true) : s.Inv := by
  obtain ⟨h0, h1⟩ := (State.buffers_iff s (·.Fits s.cfg)).2 ⟨live, next⟩
  exact ⟨params, h0.legal, h1.legal, h0.len, h1.len, dot, pending, elapsed, enc, rst⟩

/-- The bound on ELAPSED is positive (00_scope.md R8: CAP is at least 5). -/
theorem Params.bitcap_pos {p : Params} (h : p.legal = true) : 0 < p.bitcap := by
  obtain ⟨hcap, -, -⟩ := Params.legal_parts h
  unfold Params.bitcap
  omega

/-! ### What keeps the invariant -/

/-- SIG, LAST_DIAG, REPEAT_NEXT, the trace and the port are not in the invariant. -/
theorem State.Inv.with_outputs {s : State} (h : s.Inv) (x : Bool) (code : BitVec 2) (r : Bool) (es : List Event)
    (ws : List Word) :
    State.Inv { s with sig := x, lastDiag := code, repeatNext := r, trace := es, port := ws } :=
  ⟨h.params, h.buf0, h.buf1, h.len0, h.len1, h.dot, h.pending, h.elapsed, h.enc, h.rst⟩

theorem State.Inv.setPort {s : State} (h : s.Inv) (ws : List Word) : (s.setPort ws).Inv :=
  h.with_outputs _ _ _ _ ws

theorem State.Inv.emit {s : State} (h : s.Inv) (x : Bool) : (s.emit x).Inv :=
  h.with_outputs x _ _ _ _

theorem State.Inv.diag {s : State} (h : s.Inv) (e : Error) : (s.diag e).Inv :=
  h.with_outputs _ e.code _ _ _

theorem State.Inv.setElapsed {s : State} (h : s.Inv) {v : Word} (hv : v.toNat < s.cfg.bitcap * 65535) :
    (s.setElapsed v).Inv :=
  ⟨h.params, h.buf0, h.buf1, h.len0, h.len1, h.dot, h.pending, hv, h.enc, h.rst⟩

theorem State.Inv.setElapsed_zero {s : State} (h : s.Inv) : (s.setElapsed 0#32).Inv :=
  h.setElapsed (Nat.mul_pos (Params.bitcap_pos h.params) (by decide))

theorem State.Inv.setDot {s : State} (h : s.Inv) {d : BitVec 16} (hd : d ≠ 0#16) : (s.setDot d).Inv :=
  ⟨h.params, h.buf0, h.buf1, h.len0, h.len1, hd, h.pending, h.elapsed, h.enc, h.rst⟩

theorem State.Inv.setRepeat_false {s : State} (h : s.Inv) : (s.setRepeat false).Inv :=
  ⟨h.params, h.buf0, h.buf1, h.len0, h.len1, h.dot, fun _ _ => rfl, h.elapsed, h.enc, h.rst⟩

/-- After a swap NEXT is empty, so the block is not PENDING (41_playback.md R152). -/
theorem State.Inv.swap {s : State} (h : s.Inv) : s.swap.Inv := by
  have hlive := h.live_fits
  have hwf := (Memory.legalFor_iff.1 hlive.legal).1
  refine State.Inv.of_roles ?_ ?_ ?_ ?_ (fun _ hne => absurd ?_ hne) ?_ ?_ ?_
  · simpa using h.params
  · simpa using h.next_fits
  · simpa using hlive.setLen_zero h.params
  · simpa using h.dot
  · rw [State.swap_next, Memory.len_setLen hwf]
  · simpa using h.elapsed
  · simpa using h.enc
  · simpa using h.rst

/-- Legal parameters and a legal BUF_INIT give a legal reset state (10_state.md R36, R39). -/
theorem State.Inv.resetWith {p : Params} {init : BufInit} (hp : p.legal = true) (hi : init.legal p = true) :
    (State.resetWith p init).Inv := by
  obtain ⟨-, -, hdot⟩ := Params.legal_parts hp
  obtain ⟨⟨hwf0, hbelow0⟩, hwf1, hbelow1⟩ := BufInit.legal_iff.1 hi
  exact State.Inv.of_roles hp (.of_content hwf0 hbelow0) (.of_content hwf1 hbelow1) hdot (fun _ _ => rfl)
    (Nat.mul_pos (Params.bitcap_pos hp) (by decide)) rfl (fun _ h => nomatch h)

/-- Settles O13: the default parameters, with nothing listed in either buffer, are one legal choice. -/
theorem resetMeetsInvariant : Obligations.ResetMeetsInvariant :=
  ⟨State.Inv.resetWith (by decide) (by decide), fun _ _ => State.Inv.resetWith⟩

/-! ### Every command keeps the invariant (10_state.md R39) -/

/-- The bound of 41_playback.md R148: short of a boundary ELAPSED / DOT < Len(LIVE) ≤ BITCAP, and DOT is at most 65535. -/
theorem State.Inv.accumulated_lt {s : State} (h : s.Inv) {t : BitVec 28} (hb : s.atBoundary t = false) :
    (s.accumulated t).toNat < s.cfg.bitcap * 65535 := by
  have hidx : (s.accumulated t).toNat / s.dot.toNat < s.live.len.toNat := by
    rw [← bitIndex_toNat h.dot]
    exact State.atBoundary_false hb
  have hdot : 0 < s.dot.toNat := by
    have := h.dot
    bv_omega
  calc (s.accumulated t).toNat
      < s.live.len.toNat * s.dot.toNat := (Nat.div_lt_iff_lt_mul hdot).1 hidx
    _ ≤ s.cfg.bitcap * 65535 := Nat.mul_le_mul h.live_fits.len.1 (by omega)

theorem execTick_keeps_inv {s u : State} {t : BitVec 28} (h : s.Inv) (hu : execTick t s = .next u) : u.Inv := by
  rcases execTick_cases t s with ⟨-, he⟩ | ⟨-, hb, he⟩ | ⟨-, -, -, he⟩ | ⟨-, -, -, he⟩ <;>
    rw [he] at hu <;> cases hu
  · exact h
  · exact (h.setElapsed (h.accumulated_lt hb)).emit _
  · exact h.setElapsed_zero.emit _
  · exact h.swap.setElapsed_zero.emit _

/-- SUBMIT ends with REPEAT = 0 and no Encoder registers (41_playback.md R142). -/
theorem SubmitEffect.keeps_inv {s t : State} {r : Bool} {text : List Byte} (e : SubmitEffect s r text t)
    (h : s.Inv) : t.Inv := by
  refine State.Inv.of_roles ?_ ?_ ?_ ?_ (fun _ _ => e.repeatFlag) ?_ e.enc ?_
  · rw [e.cfg]; exact h.params
  · rw [e.cfg, e.live]; exact h.live_fits
  · rw [e.cfg, e.next]; exact h.next_fits.encodeText h.params text
  · rw [e.dot]; exact h.dot
  · rw [e.cfg, e.elapsed]; exact h.elapsed
  · rw [e.cfg, e.rst]; exact h.rst

/-- INTERRUPT empties LIVE and ends with REPEAT = 0 (41_playback.md R157). -/
theorem execInterrupt_keeps_inv {s t : State} (h : s.Inv) (ht : execInterrupt s = .next t) : t.Inv := by
  cases ht
  refine State.Inv.of_roles ?_ ?_ ?_ ?_ (fun _ _ => rfl) ?_ ?_ ?_
  · simpa using h.params
  · simpa using h.live_fits.setLen_zero h.params
  · simpa using h.next_fits
  · simpa using h.dot
  · simpa using h.elapsed
  · simpa using h.enc
  · simpa using h.rst

/-- SUBMIT's next state has SUBMIT's effect. -/
theorem submitEffect_of_exec {s t : State} {r : Bool} {text : List Byte} (ht : exec (.submit r text) s = .next t) :
    SubmitEffect s r text t := by
  obtain ⟨u, hu, e⟩ := execSubmit_effect r text s
  have : Host.Outcome.next u = .next t := hu.symm.trans ht
  cases this
  exact e

/-- SETDOT's two outcomes (41_playback.md R160). -/
theorem execSetdot_cases {s t : State} {d : BitVec 16} (ht : exec (.setdot d) s = .next t) :
    (d ≠ 0#16 ∧ t = s.setDot d) ∨ (d = 0#16 ∧ t = s) := by
  have ht : Host.Outcome.next (if d ≠ 0#16 then s.setDot d else s) = .next t := ht
  cases ht
  by_cases hd : d = 0#16 <;> simp [hd]

theorem exec_keeps_inv {i : Instr} {s t : State} (h : s.Inv) (ht : exec i s = .next t) : t.Inv := by
  cases i with
  | nop => cases ht; exact h
  | submit r text => exact (submitEffect_of_exec ht).keeps_inv h
  | tick d => exact execTick_keeps_inv h ht
  | stop => cases ht; exact h.setRepeat_false
  | interrupt => exact execInterrupt_keeps_inv h ht
  | setdot d =>
    rcases execSetdot_cases ht with ⟨hd, rfl⟩ | ⟨-, rfl⟩
    · exact h.setDot hd
    · exact h
  | reservedLow op => cases ht; exact h.diag _
  | reservedHigh op => cases ht; exact h.diag _

/-- Settles O14: a step resets the block, waits, or runs one command, and each keeps the invariant. -/
theorem stepKeepsInvariant : Obligations.StepKeepsInvariant := by
  intro s t h ht
  rcases step_cases s with ⟨init, hr, he⟩ | ⟨-, -, he⟩ | ⟨-, i, rest, -, he⟩ <;> rw [he] at ht
  · cases ht
    exact (State.Inv.resetWith h.params (h.rst init hr)).setPort _
  · cases ht
    exact h
  · exact exec_keeps_inv (h.setPort rest) ht

/-! ### What one command writes (10_state.md R37) and emits (R34) -/

theorem State.buf_liveSel (s : State) : s.buf s.liveSel = s.live := rfl

theorem State.buf_not_liveSel (s : State) : s.buf (!s.liveSel) = s.next := rfl

/-- A swap moves no bytes: the buffer that was NEXT is as it was. -/
theorem State.swap_buf_next (s : State) : s.swap.buf (!s.liveSel) = s.next := by
  rw [← State.swap_liveSel, State.buf_liveSel, State.swap_live]

/-- The buffer that was LIVE has its header zeroed by a swap (41_playback.md R152). -/
theorem State.swap_buf_live (s : State) : s.swap.buf s.liveSel = Memory.setLen s.live 0#32 := by
  rw [← Bool.not_not s.liveSel, ← State.swap_liveSel, State.buf_not_liveSel, State.swap_next]

/-- What a TICK can write, the buffers named by their role before it (41_playback.md R146): at most LIVE's header, and
at most one event, with the new SIG. -/
structure TickEffect (s t : State) : Prop where
  next : t.buf (!s.liveSel) = s.next
  live : t.buf s.liveSel = s.live ∨ t.buf s.liveSel = Memory.setLen s.live 0#32
  dot : t.dot = s.dot
  lastDiag : t.lastDiag = s.lastDiag
  cfg : t.cfg = s.cfg
  port : t.port = s.port
  rst : t.rst = s.rst
  trace : t.trace = s.trace ∨ t.trace = s.trace ++ [.sig t.sig]

/-- A tick that keeps the roles writes ELAPSED and emits. -/
theorem TickEffect.setElapsed_emit (s : State) (v : Word) (x : Bool) : TickEffect s ((s.setElapsed v).emit x) :=
  ⟨rfl, .inl rfl, rfl, rfl, rfl, rfl, rfl, .inr rfl⟩

/-- A tick that swaps. -/
theorem TickEffect.swap_emit (s : State) (v : Word) (x : Bool) : TickEffect s ((s.swap.setElapsed v).emit x) where
  next := s.swap_buf_next
  live := .inr s.swap_buf_live
  dot := s.swap_dot
  lastDiag := s.swap_lastDiag
  cfg := s.swap_cfg
  port := s.swap_port
  rst := s.swap_rst
  trace := .inr (by simp)

theorem tickEffect_of_exec {s u : State} {t : BitVec 28} (hu : exec (.tick t) s = .next u) : TickEffect s u := by
  have hu : execTick t s = .next u := hu
  rcases execTick_cases t s with ⟨-, he⟩ | ⟨-, -, he⟩ | ⟨-, -, -, he⟩ | ⟨-, -, -, he⟩ <;>
    rw [he] at hu <;> cases hu
  · exact ⟨rfl, .inl rfl, rfl, rfl, rfl, rfl, rfl, .inl rfl⟩
  · exact TickEffect.setElapsed_emit s _ _
  · exact TickEffect.setElapsed_emit s _ _
  · exact TickEffect.swap_emit s _ _

/-- A TICK writes no content byte of the buffer that was live. -/
theorem TickEffect.live_content {s t : State} (e : TickEffect s t) (hwf : s.live.wf = true) {a : Nat} (ha : 4 ≤ a) :
    (t.buf s.liveSel).read a = s.live.read a := by
  rcases e.live with hl | hl <;> rw [hl]
  exact Memory.read_setLen_content hwf _ ha

/-- A SUBMIT leaves the live buffer as it is. -/
theorem SubmitEffect.buf_live {s t : State} {r : Bool} {text : List Byte} (e : SubmitEffect s r text t) :
    t.buf s.liveSel = s.live := by
  rw [← e.liveSel, State.buf_liveSel, e.live]

/-- Writing LIVE, read back by the buffer's number: that buffer changes and the other does not. -/
theorem State.setLive_buf_liveSel (s : State) (m : Memory) : (s.setLive m).buf s.liveSel = m := by
  rw [State.setLive, State.buf_setBuf, if_pos rfl]

theorem State.setLive_buf_not_liveSel (s : State) (m : Memory) : (s.setLive m).buf (!s.liveSel) = s.next := by
  rw [State.setLive, State.buf_setBuf, if_neg (by simp), State.buf_not_liveSel]

/-- Settles O42: each command's row, from its effect on each field. -/
theorem writeMatrix : Obligations.WriteMatrix := by
  intro i s t h0 h1 ht
  have hwf : s.live.wf = true := ((State.buffers_iff s (·.wf = true)).1 ⟨h0, h1⟩).1
  cases i with
  | nop => cases ht; simp [State.buf_liveSel, State.buf_not_liveSel]
  | submit r text =>
    have e := submitEffect_of_exec ht
    simp [e.buf_live, e.liveSel, e.elapsed, e.dot, e.sig, e.cfg, e.port, e.rst]
  | tick d =>
    have e := tickEffect_of_exec ht
    simpa [e.next, e.dot, e.lastDiag, e.cfg, e.port, e.rst] using fun a ha => e.live_content hwf ha
  | stop => cases ht; simp [State.buf_liveSel, State.buf_not_liveSel]
  | interrupt =>
    cases ht
    simpa [State.setLive_buf_liveSel, State.setLive_buf_not_liveSel] using
      fun a ha => Memory.read_setLen_content hwf _ ha
  | setdot d =>
    rcases execSetdot_cases ht with ⟨-, rfl⟩ | ⟨-, rfl⟩ <;> simp [State.buf_liveSel, State.buf_not_liveSel]
  | reservedLow op => cases ht; simp [State.reservedWord, State.buf_liveSel, State.buf_not_liveSel]
  | reservedHigh op => cases ht; simp [State.reservedWord, State.buf_liveSel, State.buf_not_liveSel]

/-- SUBMIT's event (41_playback.md R144): none on success, else the DIAG that LAST_DIAG names. -/
theorem SubmitEffect.event {s t : State} {r : Bool} {text : List Byte} (e : SubmitEffect s r text t) :
    t.trace = s.trace ∨ ∃ err : Error, t.trace = s.trace ++ [.diag err] ∧ t.lastDiag = err.code := by
  have htrace := e.trace
  have hdiag := e.lastDiag
  cases hcode : (encodeText s.cfg s.next text).2 with
  | none =>
    rw [hcode] at htrace
    exact .inl htrace
  | some err =>
    rw [hcode] at htrace hdiag
    exact .inr ⟨err, htrace, hdiag⟩

/-- Settles O43: TICK emits a SIG or nothing, SUBMIT a DIAG or nothing, a reserved word a DIAG, the rest nothing. -/
theorem atMostOneEventPerCommand : Obligations.AtMostOneEventPerCommand := by
  intro i s t ht
  cases i with
  | nop => cases ht; exact .inl rfl
  | submit r text =>
    rcases (submitEffect_of_exec ht).event with hnone | ⟨err, htrace, hdiag⟩
    · exact .inl hnone
    · exact .inr (.inr ⟨err, htrace, hdiag, .inl ⟨r, text, rfl⟩⟩)
  | tick d =>
    rcases (tickEffect_of_exec ht).trace with hnone | hsig
    · exact .inl hnone
    · exact .inr (.inl ⟨hsig, d, rfl⟩)
  | stop => cases ht; exact .inl rfl
  | interrupt => cases ht; exact .inl (by simp)
  | setdot d => rcases execSetdot_cases ht with ⟨-, rfl⟩ | ⟨-, rfl⟩ <;> exact .inl rfl
  | reservedLow op => cases ht; exact .inr (.inr ⟨_, rfl, rfl, .inr (.inl ⟨op, rfl⟩)⟩)
  | reservedHigh op => cases ht; exact .inr (.inr ⟨_, rfl, rfl, .inr (.inr ⟨op, rfl⟩)⟩)

end Sys2Proof.Machine
end

section
/-! The rule of 20_memory.md R52: the length header, read and written byte by byte. -/

namespace Sys2Proof.Machine

/-- Appending words is place-value arithmetic: the left word counts multiples of the right word's range. -/
theorem toNat_append_eq_mul_add {k n : Nat} (x : BitVec k) (y : BitVec n) :
    (x ++ y).toNat = x.toNat * 2 ^ n + y.toNat := by
  rw [BitVec.toNat_append, ← Nat.shiftLeft_add_eq_or_of_lt y.isLt, Nat.shiftLeft_eq]

/-- Len is the header's big-endian value. -/
theorem Memory.len_toNat (m : Memory) :
    m.len.toNat =
      (m.read 0).toNat * 2 ^ 24 + (m.read 1).toNat * 2 ^ 16 + (m.read 2).toNat * 2 ^ 8 + (m.read 3).toNat := by
  simp only [Memory.len, toNat_append_eq_mul_add]
  omega

/-- Settles O16: Len by place value; SetLen's four header bytes and its frame from the read-after-SetLen law. -/
theorem headerIsBigEndian : Obligations.HeaderIsBigEndian :=
  ⟨Memory.len_toNat, fun _ v h =>
    have hread := Memory.read_setLen h v
    ⟨hread 0, hread 1, hread 2, hread 3, fun _ ha => Memory.read_setLen_content h v ha⟩⟩

end Sys2Proof.Machine
end

section
/-! The rules of 30_encoding.md: decoding and encoding are inverse up to the reserved and ignored bits, the assembler's
lines, and what a step does with the presented words. -/

namespace Sys2Proof.Machine

open Sys2Proof.Laws

/-! ### Decoding an encoded command (30_encoding.md R71 to R74) -/

/-- A well-formed command's words are its first word and exactly the beats that word announces, and stand for it. -/
theorem fields_of_wf (i : Instr) : Fields.Statement i := by
  cases i with
  | nop => exact Fields.nop
  | submit r text => exact Fields.submit r text
  | tick t => exact Fields.tick t
  | stop => exact Fields.stop
  | interrupt => exact Fields.interrupt
  | setdot d => exact Fields.setdot d
  | reservedLow op => exact Fields.reservedLow op
  | reservedHigh op => exact Fields.reservedHigh op

theorem decode_encode_append {i : Instr} (h : i.wf = true) (rest : List Word) :
    decode (encode i ++ rest) = .ok (i, rest) := by
  obtain ⟨hbeats, hcommand⟩ := fields_of_wf i h
  rw [encode, List.cons_append, decode_append hbeats, hcommand]

/-- Settles O1: the first word announces the command's beats, so they and no more are taken. -/
theorem decodeOfEncodeGivesCommandBack : Obligations.DecodeOfEncodeGivesCommandBack :=
  fun _ rest h => decode_encode_append h rest

/-- Two well-formed commands with the same words are the same command. -/
theorem encode_injective {i j : Instr} (hi : i.wf = true) (hj : j.wf = true) (h : encode i = encode j) : i = j := by
  have hij := decode_encode_append hi []
  rw [h, decode_encode_append hj []] at hij
  cases hij
  rfl

/-! ### A word as its fields, and its used bits (30_encoding.md R71, R72, R74) -/

/-- OP above the operand bits 27:0. -/
theorem opField_append_timeField (w : Word) : opField w ++ timeField w = w :=
  BitVec.extractLsb'_append_extractLsb'

/-- SETDOT's parts: OP, twelve reserved bits, D. -/
theorem opField_append_dotField (w : Word) : opField w ++ w.extractLsb' 16 12 ++ dotField w = w := by
  rw [opField, BitVec.extractLsb'_append_extractLsb'_eq_extractLsb' (show 28 = 16 + 12 from rfl)]
  exact BitVec.extractLsb'_append_extractLsb'

theorem ofBool_getLsbD (w : Word) (k : Nat) : BitVec.ofBool (w.getLsbD k) = w.extractLsb' k 1 := by
  ext i hi
  obtain rfl : i = 0 := by omega
  simp

/-- SUBMIT's parts: OP, R, eleven reserved bits, N. -/
theorem opField_append_submitFields (w : Word) :
    opField w ++ BitVec.ofBool (repeatField w) ++ w.extractLsb' 16 11 ++ w.extractLsb' 0 16 = w := by
  rw [repeatField, ofBool_getLsbD, opField,
    BitVec.extractLsb'_append_extractLsb'_eq_extractLsb' (show 28 = 27 + 1 from rfl),
    BitVec.extractLsb'_append_extractLsb'_eq_extractLsb' (show 27 = 16 + 11 from rfl)]
  exact BitVec.extractLsb'_append_extractLsb'

/-- A data beat's parts: 24 ignored bits, then the character (30_encoding.md R73). -/
theorem ignored_append_beatChar (b : Word) : b.extractLsb' 8 24 ++ beatChar b = b :=
  BitVec.extractLsb'_append_extractLsb'

/-- A character as a beat: 24 zeros above it. -/
theorem setWidth_char (c : Byte) : c.setWidth 32 = 0#24 ++ c :=
  BitVec.setWidth_eq_append (by decide)

theorem and_usedBits_submit {w : Word} (h : opField w = 0x1#4) :
    w &&& usedBits (opField w) =
      0x1#4 ++ BitVec.ofBool (repeatField w) ++ 0#11 ++ w.extractLsb' 0 16 :=
  calc w &&& usedBits (opField w)
      = (opField w ++ BitVec.ofBool (repeatField w) ++ w.extractLsb' 16 11 ++ w.extractLsb' 0 16) &&&
          (BitVec.allOnes 4 ++ BitVec.allOnes 1 ++ 0#11 ++ BitVec.allOnes 16) := by
        rw [opField_append_submitFields, h]
        rfl
    _ = 0x1#4 ++ BitVec.ofBool (repeatField w) ++ 0#11 ++ w.extractLsb' 0 16 := by
        simp only [BitVec.and_append, BitVec.and_allOnes, BitVec.and_zero, h]

theorem and_usedBits_tick {w : Word} (h : opField w = 0x2#4) : w &&& usedBits (opField w) = 0x2#4 ++ timeField w := by
  rw [← h, opField_append_timeField, h]
  exact BitVec.and_allOnes

theorem and_usedBits_setdot {w : Word} (h : opField w = 0x5#4) :
    w &&& usedBits (opField w) = 0x5#4 ++ 0#12 ++ dotField w :=
  calc w &&& usedBits (opField w)
      = (opField w ++ w.extractLsb' 16 12 ++ dotField w) &&& (BitVec.allOnes 4 ++ 0#12 ++ BitVec.allOnes 16) := by
        rw [opField_append_dotField, h]
        rfl
    _ = 0x5#4 ++ 0#12 ++ dotField w := by
        simp only [BitVec.and_append, BitVec.and_allOnes, BitVec.and_zero, h]

/-- Every other command word has no operand: only OP is used. -/
theorem and_usedBits_of_no_operand {w : Word} {op : BitVec 4} (h : opField w = op)
    (hop : op ≠ 0x1#4 ∧ op ≠ 0x2#4 ∧ op ≠ 0x5#4) : w &&& usedBits (opField w) = op ++ 0#28 := by
  obtain ⟨h1, h2, h5⟩ := hop
  calc w &&& usedBits (opField w)
      = (opField w ++ timeField w) &&& (BitVec.allOnes 4 ++ 0#28) := by
        rw [opField_append_timeField, h, usedBits, if_neg h1, if_neg h2, if_neg h5]
        rfl
    _ = op ++ 0#28 := by
        rw [BitVec.and_append, BitVec.and_allOnes, BitVec.and_zero, h]

/-- OP is used in every command word. -/
theorem opField_usedBits (op : BitVec 4) : opField (usedBits op) = BitVec.allOnes 4 := by
  revert op
  decide

theorem opField_and_usedBits (w : Word) (op : BitVec 4) : opField (w &&& usedBits op) = opField w := by
  have hmask := opField_usedBits op
  rw [opField] at hmask ⊢
  rw [BitVec.extractLsb'_and, hmask, BitVec.and_allOnes, opField]

/-- The used bits say how many beats a command has (30_encoding.md R77). -/
theorem beatCount_and_usedBits (w : Word) : beatCount (w &&& usedBits (opField w)) = beatCount w := by
  simp only [beatCount_eq, opField_and_usedBits]
  split_ifs with h
  · rw [and_usedBits_submit h, lengthField, lengthField, extractLsb'_append_low]
  · rfl

/-! ### The command of a first word (30_encoding.md R72) -/

/-- The opcode map's rows cover every OP. -/
theorem opField_cases (w : Word) :
    opField w = 0x0#4 ∨ opField w = 0x1#4 ∨ opField w = 0x2#4 ∨ opField w = 0x3#4 ∨ opField w = 0x4#4 ∨
      opField w = 0x5#4 ∨ (opField w = 0x6#4 ∨ opField w = 0x7#4) ∨ 8 ≤ (opField w).toNat := by
  generalize opField w = op
  revert op
  decide

section CommandOf

variable {w : Word} (text : List Byte)

theorem commandOf_nop (h : opField w = 0x0#4) : commandOf w text = .nop := by
  simp [commandOf, h]

theorem commandOf_submit (h : opField w = 0x1#4) : commandOf w text = .submit (repeatField w) text := by
  simp [commandOf, h]

theorem commandOf_tick (h : opField w = 0x2#4) : commandOf w text = .tick (timeField w) := by
  simp [commandOf, h]

theorem commandOf_stop (h : opField w = 0x3#4) : commandOf w text = .stop := by
  simp [commandOf, h]

theorem commandOf_interrupt (h : opField w = 0x4#4) : commandOf w text = .interrupt := by
  simp [commandOf, h]

theorem commandOf_setdot (h : opField w = 0x5#4) : commandOf w text = .setdot (dotField w) := by
  simp [commandOf, h]

theorem commandOf_reservedLow (h : opField w = 0x6#4 ∨ opField w = 0x7#4) :
    commandOf w text = .reservedLow (w.extractLsb' 28 1) := by
  rcases h with h | h <;> simp [commandOf, h]

theorem commandOf_reservedHigh (h : 8 ≤ (opField w).toNat) :
    commandOf w text = .reservedHigh (w.extractLsb' 28 3) := by
  have hne : ∀ op : BitVec 4, op.toNat < 8 → opField w ≠ op := fun op hop e => by
    rw [e] at h
    omega
  simp [commandOf, hne]

/-- Only SUBMIT has data beats. -/
theorem dataBeats_commandOf_of_ne (h : opField w ≠ 0x1#4) : dataBeats (commandOf w text) = [] := by
  unfold commandOf
  split_ifs <;> rfl

/-- Only SUBMIT can be ill formed. -/
theorem wf_commandOf_of_ne (h : opField w ≠ 0x1#4) : (commandOf w text).wf = true := by
  unfold commandOf
  split_ifs <;> rfl

end CommandOf

/-- The low bits of OP, read off the word. -/
theorem extractLsb'_eq_opField {k : Nat} (hk : k ≤ 4) (w : Word) :
    w.extractLsb' 28 k = (opField w).extractLsb' 0 k := by
  ext i hi
  simp [opField, show i < 4 by omega]

/-- OP 0x6 and 0x7 differ in bit 28 only. -/
theorem opField_reservedLow {w : Word} (h : opField w = 0x6#4 ∨ opField w = 0x7#4) :
    0x3#3 ++ w.extractLsb' 28 1 = opField w := by
  rw [extractLsb'_eq_opField (by decide)]
  rcases h with h | h <;> rw [h] <;> rfl

/-- OP 0x8..0xF have bit 31 set. -/
theorem opField_reservedHigh {w : Word} (h : 8 ≤ (opField w).toNat) : 0x1#1 ++ w.extractLsb' 28 3 = opField w := by
  rw [extractLsb'_eq_opField (by decide)]
  generalize opField w = op at h
  revert op
  decide

theorem lengthField_lt (w : Word) : lengthField w < 65536 :=
  (w.extractLsb' 0 16).isLt

/-- Every command the decoder can give is well formed: N is at most 65535 (30_encoding.md R73). -/
theorem wf_commandOf {w : Word} {text : List Byte} (hlen : text.length = beatCount w) :
    (commandOf w text).wf = true := by
  by_cases h : opField w = 0x1#4
  · rw [beatCount_eq, if_pos h] at hlen
    have := lengthField_lt w
    rw [commandOf_submit text h, Instr.wf, decide_eq_true_eq]
    omega
  · exact wf_commandOf_of_ne text h

/-- The encoder writes the used bits of the word a command was decoded from, and zeros (30_encoding.md R75, log 8). -/
theorem commandWord_commandOf {w : Word} {text : List Byte} (hlen : text.length = beatCount w) :
    commandWord (commandOf w text) = w &&& usedBits (opField w) := by
  rcases opField_cases w with h | h | h | h | h | h | h | h
  · rw [commandOf_nop text h, and_usedBits_of_no_operand h (by decide)]
    rfl
  · rw [beatCount_eq, if_pos h] at hlen
    rw [commandOf_submit text h, and_usedBits_submit h, commandWord, hlen, lengthField, BitVec.ofNat_toNat,
      BitVec.setWidth_eq]
  · rw [commandOf_tick text h, and_usedBits_tick h, commandWord]
  · rw [commandOf_stop text h, and_usedBits_of_no_operand h (by decide)]
    rfl
  · rw [commandOf_interrupt text h, and_usedBits_of_no_operand h (by decide)]
    rfl
  · rw [commandOf_setdot text h, and_usedBits_setdot h, commandWord]
  · rw [commandOf_reservedLow text h, commandWord, opField_reservedLow h]
    exact (and_usedBits_of_no_operand rfl (by bv_omega)).symm
  · rw [commandOf_reservedHigh text h, commandWord, opField_reservedHigh h]
    exact (and_usedBits_of_no_operand rfl (by bv_omega)).symm

/-- A beat encoded again keeps bits 7:0 only (30_encoding.md R73). -/
theorem setWidth_beatChar (b : Word) : (beatChar b).setWidth 32 = b &&& 0x000000FF#32 := by
  have hmask : 0x000000FF#32 = 0#24 ++ BitVec.allOnes 8 := rfl
  conv_rhs => rw [hmask, ← ignored_append_beatChar b]
  rw [BitVec.and_append, BitVec.and_zero, BitVec.and_allOnes, setWidth_char]

theorem dataBeats_commandOf {w : Word} {beats : List Word} (hlen : beats.length = beatCount w) :
    dataBeats (commandOf w (beats.map beatChar)) = beats.map fun b => b &&& 0x000000FF#32 := by
  by_cases h : opField w = 0x1#4
  · simp [commandOf_submit _ h, dataBeats, setWidth_beatChar]
  · rw [beatCount_eq, if_neg h, List.length_eq_zero_iff] at hlen
    rw [dataBeats_commandOf_of_ne _ h, hlen, List.map_nil]

theorem encode_commandOf {w : Word} {beats : List Word} (hlen : beats.length = beatCount w) :
    encode (commandOf w (beats.map beatChar)) =
      (w &&& usedBits (opField w)) :: beats.map fun b => b &&& 0x000000FF#32 := by
  rw [encode, commandWord_commandOf (by rw [List.length_map, hlen]), dataBeats_commandOf hlen]

/-- Settles O2: the words taken are a first word and its beats, and encoding clears each row's unused bits. -/
theorem encodeOfDecodeClearsReservedBits : Obligations.EncodeOfDecodeClearsReservedBits := by
  intro ws rest i h
  obtain ⟨w, beats, hws, hlen, rfl⟩ := decode_ok h
  exact ⟨wf_commandOf (by rw [List.length_map, hlen]), w, beats, hws, encode_commandOf hlen⟩

/-! ### A step (30_encoding.md R70) -/

theorem step_of_decode {s : State} {i : Instr} {rest : List Word} (hrst : s.rst = none)
    (h : decode s.port = .ok (i, rest)) : step s = exec i (s.setPort rest) := by
  rw [step, hrst, h]

/-- Settles O7: `step`'s last branch. -/
theorem stepRunsDecodedCommand : Obligations.StepRunsDecodedCommand :=
  fun _ _ _ => step_of_decode

/-- A step that is presented words that decode runs their command, whatever the port held before. -/
theorem step_setPort {s : State} {ws rest : List Word} {i : Instr} (hrst : s.rst = none)
    (h : decode ws = .ok (i, rest)) : step (s.setPort ws) = exec i (s.setPort rest) :=
  step_of_decode (s := s.setPort ws) hrst h

/-- Settles O8: the presented words decode to the command they encode (O1). -/
theorem stepRunsPresentedCommand : Obligations.StepRunsPresentedCommand :=
  fun _ _ rest hwf hrst => step_setPort hrst (decode_encode_append hwf rest)

/-- Settles O9: an empty port and missing beats are the decoder's two errors, and on an error the block waits. -/
theorem stepWaitsForWholeCommand : Obligations.StepWaitsForWholeCommand := by
  intro s hrst hport
  have herror : ∃ e, decode s.port = .error e := by
    rcases hport with hempty | ⟨w, beats, hcons, hop, hlen⟩
    · exact ⟨.noWord, by rw [hempty]; rfl⟩
    · exact ⟨_, by rw [hcons, decode_cons, if_pos ((lt_beatCount_iff _ w).2 ⟨hop, hlen⟩)]⟩
  obtain ⟨e, he⟩ := herror
  rw [step, hrst, he]

/-! ### Reserved and ignored bits (30_encoding.md R72, R75) -/

/-- Words that agree on the used bits of the first one's OP have the same OP and the same number of beats. -/
theorem opField_beatCount_of_agree {w w' : Word} (h : w &&& usedBits (opField w) = w' &&& usedBits (opField w)) :
    opField w = opField w' ∧ beatCount w = beatCount w' := by
  have hop : opField w = opField w' := by
    rw [← opField_and_usedBits w (opField w), h, opField_and_usedBits]
  refine ⟨hop, ?_⟩
  rw [← beatCount_and_usedBits w, h, hop, beatCount_and_usedBits]

/-- Words that agree on used bits decode to the same command: both commands are well formed and encode alike. -/
theorem decode_of_agree {w w' : Word} {beats beats' : List Word} (rest : List Word)
    (hw : w &&& usedBits (opField w) = w' &&& usedBits (opField w))
    (hbeats : beats.map (fun b => b &&& 0x000000FF#32) = beats'.map fun b => b &&& 0x000000FF#32)
    (hlen : beats.length = beatCount w) :
    decode (w :: (beats ++ rest)) = .ok (commandOf w (beats.map beatChar), rest) ∧
      decode (w' :: (beats' ++ rest)) = .ok (commandOf w (beats.map beatChar), rest) := by
  obtain ⟨hop, hcount⟩ := opField_beatCount_of_agree hw
  have hlen' : beats'.length = beatCount w' := by
    rw [← hcount, ← hlen]
    simpa using (congrArg List.length hbeats).symm
  have hsame : commandOf w (beats.map beatChar) = commandOf w' (beats'.map beatChar) := by
    refine encode_injective (wf_commandOf (by rw [List.length_map, hlen]))
      (wf_commandOf (by rw [List.length_map, hlen'])) ?_
    rw [encode_commandOf hlen, encode_commandOf hlen', hw, hbeats, hop]
  exact ⟨decode_append hlen, by rw [hsame, decode_append hlen']⟩

/-- The encoder sets no bit outside a command word's used bits (30_encoding.md R75, log 8). -/
theorem commandWord_and_not_usedBits (i : Instr) :
    commandWord i &&& ~~~ usedBits (opField (commandWord i)) = 0#32 := by
  cases i with
  | nop => rfl
  | submit r text =>
    rw [opField_submit, commandWord]
    change (0x1#4 ++ BitVec.ofBool r ++ 0#11 ++ BitVec.ofNat 16 text.length) &&&
      (0#4 ++ 0#1 ++ BitVec.allOnes 11 ++ 0#16) = 0#32
    simp only [BitVec.and_append, BitVec.and_zero, BitVec.zero_and]
    rfl
  | tick t =>
    rw [opField_tick]
    exact BitVec.and_zero
  | stop => rfl
  | interrupt => rfl
  | setdot d =>
    rw [opField_setdot, commandWord]
    change (0x5#4 ++ 0#12 ++ d) &&& (0#4 ++ BitVec.allOnes 12 ++ 0#16) = 0#32
    simp only [BitVec.and_append, BitVec.and_zero, BitVec.zero_and]
    rfl
  | reservedLow op =>
    revert op
    decide
  | reservedHigh op =>
    revert op
    decide

/-- A beat the encoder writes is a zero-extended character. -/
theorem dataBeats_high_zero {i : Instr} {b : Word} (hb : b ∈ dataBeats i) : b &&& 0xFFFFFF00#32 = 0#32 := by
  cases i with
  | submit r text =>
    obtain ⟨c, -, rfl⟩ := List.mem_map.1 hb
    have hmask : 0xFFFFFF00#32 = BitVec.allOnes 24 ++ 0#8 := rfl
    rw [setWidth_char, hmask, BitVec.and_append, BitVec.zero_and, BitVec.and_zero]
    rfl
  | _ => cases hb

/-- Settles O3: words that agree on used bits decode to one command, which a step then runs on the same state. -/
theorem reservedBitsAreIgnored : Obligations.ReservedBitsAreIgnored := by
  refine ⟨fun w w' beats beats' rest hw hbeats hlen => ?_,
    fun i => ⟨commandWord_and_not_usedBits i, fun _ => dataBeats_high_zero⟩⟩
  obtain ⟨hdecode, hdecode'⟩ := decode_of_agree rest hw hbeats hlen
  exact ⟨hdecode.trans hdecode'.symm,
    fun s hrst => (step_setPort hrst hdecode).trans (step_setPort hrst hdecode').symm⟩

/-! ### Lengths and worked encodings (30_encoding.md R77, R78) -/

theorem commandWords_eq_beatCount (w : Word) : commandWords w = beatCount w + 1 := by
  have := commandWords_pos w
  unfold beatCount
  omega

/-- Settles O4: the decoder's two answers, with the beats counted by the first word. -/
theorem firstWordGivesCommandLength : Obligations.FirstWordGivesCommandLength := by
  intro w ws
  refine ⟨rfl, fun hall => ?_, fun hfew => ?_⟩
  · rw [commandWords_eq_beatCount] at hall ⊢
    exact ⟨_, by rw [decode_cons, if_neg (by omega), List.drop_succ_cons]⟩
  · rw [commandWords_eq_beatCount] at hfew ⊢
    rw [decode_cons, if_pos (by omega), Nat.add_sub_add_right]

/-- A word that is no SUBMIT is a command by itself. -/
theorem decode_of_one_word {w : Word} (h : opField w ≠ 0x1#4) (rest : List Word) :
    decode (w :: rest) = .ok (commandOf w [], rest) :=
  decode_append (beats := []) (by rw [beatCount_eq, if_neg h]; rfl)

/-- The reserved opcodes' two rows (30_encoding.md R72). -/
theorem decode_reserved {w : Word} (h : 6 ≤ (opField w).toNat) :
    ∃ i, decode [w] = .ok (i, []) ∧
      ((opField w).toNat ≤ 7 ∧ (∃ op, i = .reservedLow op) ∨
        8 ≤ (opField w).toNat ∧ ∃ op, i = .reservedHigh op) := by
  have hone : opField w ≠ 0x1#4 := fun e => by
    rw [e] at h
    exact absurd h (by decide)
  refine ⟨_, decode_of_one_word hone [], ?_⟩
  by_cases h8 : 8 ≤ (opField w).toNat
  · exact .inr ⟨h8, _, commandOf_reservedHigh [] h8⟩
  · have hlow : opField w = 0x6#4 ∨ opField w = 0x7#4 := by bv_omega
    exact .inl ⟨by omega, _, commandOf_reservedLow [] hlow⟩

/-- Settles O5: the worked words are decoded one by one, the reserved ones by their OP. -/
theorem workedEncodingsDecode : Obligations.WorkedEncodingsDecode :=
  ⟨rfl, rfl, rfl, rfl, rfl, rfl, rfl, rfl, rfl, rfl, rfl, fun _ => decode_reserved⟩

/-! ### The assembler (30_encoding.md R82, R83) -/

/-- A number that fits the low field of two is zeros above that field. -/
theorem ofNat_eq_zero_append {m k n : Nat} (h : n < 2 ^ k) : BitVec.ofNat (m + k) n = 0#m ++ BitVec.ofNat k n := by
  apply BitVec.eq_of_toNat_eq
  have hle : 2 ^ k ≤ 2 ^ (m + k) := Nat.pow_le_pow_right (by decide) (Nat.le_add_left k m)
  simp [Nat.mod_eq_of_lt h, Nat.mod_eq_of_lt (lt_of_lt_of_le h hle)]

/-- SUBMIT's word, its three fields put in place by OR. -/
theorem commandWord_submit_eq_or (r : Bool) {text : List Byte} (h : text.length ≤ 65535) :
    commandWord (.submit r text) =
      0x10000000#32 ||| (if r then 0x08000000#32 else 0#32) ||| BitVec.ofNat 32 text.length := by
  have hop : 0x10000000#32 ||| (if r then 0x08000000#32 else 0#32) = 0x1#4 ++ BitVec.ofBool r ++ 0#11 ++ 0#16 := by
    cases r <;> rfl
  rw [hop, ofNat_eq_zero_append (m := 16) (k := 16) (by omega), BitVec.or_append, BitVec.or_zero, BitVec.zero_or,
    commandWord]

theorem commandWord_tick_eq_or {t : Nat} (h : t < 2 ^ 28) :
    commandWord (.tick (BitVec.ofNat 28 t)) = 0x20000000#32 ||| BitVec.ofNat 32 t := by
  have hop : 0x20000000#32 = 0x2#4 ++ 0#28 := rfl
  rw [hop, ofNat_eq_zero_append (m := 4) h, BitVec.or_append, BitVec.or_zero, BitVec.zero_or, commandWord]

theorem commandWord_setdot_eq_or {d : Nat} (h : d ≤ 65535) :
    commandWord (.setdot (BitVec.ofNat 16 d)) = 0x50000000#32 ||| BitVec.ofNat 32 d := by
  have hop : 0x50000000#32 = 0x5#4 ++ 0#12 ++ 0#16 := rfl
  rw [hop, ofNat_eq_zero_append (m := 16) (k := 16) (by omega), BitVec.or_append, BitVec.or_zero, BitVec.zero_or,
    commandWord]

theorem assemble_submit (r : Bool) (text : List Byte) :
    assemble (.submit r text) =
      if text.length ≤ 65535 then
        some ((0x10000000#32 ||| (if r then 0x08000000#32 else 0#32) ||| BitVec.ofNat 32 text.length) ::
          text.map (·.setWidth 32))
      else none := by
  rw [assemble, assembleSubmit]
  by_cases h : text.length ≤ 65535
  · rw [if_pos h, if_pos h, encode, commandWord_submit_eq_or r h, dataBeats]
  · rw [if_neg h, if_neg h]

theorem assembleTick_eq (t : Nat) :
    assembleTick t = if t ≤ 2 ^ 28 - 1 then some (0x20000000#32 ||| BitVec.ofNat 32 t) else none := by
  unfold assembleTick
  by_cases h : t < 2 ^ 28
  · rw [if_pos h, if_pos (by omega), commandWord_tick_eq_or h]
  · rw [if_neg h, if_neg (by omega)]

theorem assemble_setdot (d : Nat) :
    assemble (.setdot d) = if d ≤ 65535 then some [0x50000000#32 ||| BitVec.ofNat 32 d] else none := by
  rw [assemble]
  split_ifs with h
  · rw [encode, commandWord_setdot_eq_or h, dataBeats]
  · rfl

/-- Settles O6: each operand in range ORs into its field; PLAY, LOOP and WAIT are what R83 says they stand for. -/
theorem assemblerLinesAndPseudoInstructions : Obligations.AssemblerLinesAndPseudoInstructions := by
  refine ⟨assemble_submit, fun t => ?_, assemble_setdot, fun _ => rfl, rfl, rfl, rfl, fun _ => ⟨rfl, rfl⟩,
    fun n t ht => ?_⟩
  · rw [assemble, assembleTick_eq]
    split_ifs <;> rfl
  · rw [assemble, assembleTick_eq, if_pos ht, Option.map_some]

/-! ### Characters (30_encoding.md R79 to R81) -/

theorem upperCase_toNat (c : Byte) :
    (upperCase c).toNat = if 0x61 ≤ c.toNat ∧ c.toNat ≤ 0x7A then c.toNat - 0x20 else c.toNat := by
  unfold upperCase
  split_ifs with h
  · bv_omega
  · rfl

/-- LUT entries 10..16 are empty (40_encoder.md R101). -/
theorem lut_gap (p : Params) {k : Nat} (h10 : 10 ≤ k) (h17 : k < 17) : p.lut k = [] := by
  rw [Params.lut, if_neg (by omega), if_pos h17]

section Classes

variable (p : Params) {u : Nat}

theorem classOfUpper_space : classOfUpper p 0x20 = .space := rfl

theorem classOfUpper_digit (h0 : 0x30 ≤ u) (h9 : u ≤ 0x39) : classOfUpper p u = .symbol (p.lut (u - 0x30)) := by
  rw [classOfUpper, if_neg (by omega), if_pos ⟨h0, h9⟩]

theorem classOfUpper_letter (hA : 0x41 ≤ u) (hZ : u ≤ 0x5A) : classOfUpper p u = .symbol (p.lut (u - 0x30)) := by
  rw [classOfUpper, if_neg (by omega), if_neg (by omega), if_pos ⟨hA, hZ⟩]

/-- The gap characters' class by policy; their LUT entries are empty. -/
theorem classOfUpper_gap (hlo : 0x3A ≤ u) (hhi : u ≤ 0x40) :
    (p.gapChar = .invalid → classOfUpper p u = .invalid) ∧
      (p.gapChar = .emptyEntry → classOfUpper p u = .symbol []) := by
  have hlut : p.lut (u - 0x30) = [] := lut_gap p (by omega) (by omega)
  rw [classOfUpper, if_neg (by omega), if_neg (by omega), if_neg (by omega), if_pos ⟨hlo, hhi⟩, hlut]
  exact ⟨fun hpolicy => by rw [hpolicy], fun hpolicy => by rw [hpolicy]⟩

theorem classOfUpper_other (h : u < 0x20 ∨ (0x20 < u ∧ u < 0x30) ∨ 0x5A < u) : classOfUpper p u = .invalid := by
  rw [classOfUpper, if_neg (by omega), if_neg (by omega), if_neg (by omega), if_neg (by omega)]

end Classes

/-- Settles O19: `classOf` is the class of the upper-cased byte, range by range. -/
theorem characterClasses : Obligations.CharacterClasses := by
  intro p c
  rw [classOf, upperCase_toNat]
  exact ⟨fun h => by rw [h, classOfUpper_space], classOfUpper_digit p, classOfUpper_letter p, classOfUpper_gap p,
    classOfUpper_other p⟩

/-! ### Encoding is case-insensitive (30_encoding.md R79) -/

/-- An upper-cased byte is not lower case. -/
theorem upperCase_upperCase (c : Byte) : upperCase (upperCase c) = upperCase c := by
  have hupper : ¬ (0x61 ≤ (upperCase c).toNat ∧ (upperCase c).toNat ≤ 0x7A) := by
    rw [upperCase_toNat]
    split_ifs <;> omega
  exact if_neg hupper

theorem classOf_upperCase (p : Params) (c : Byte) : classOf p (upperCase c) = classOf p c := by
  rw [classOf, upperCase_upperCase, classOf]

/-- The Encoder sees a character's class only. -/
theorem Encoding.char_upperCase (p : Params) (x : Encoding) (c : Byte) : x.char p (upperCase c) = x.char p c := by
  rw [Encoding.char, classOf_upperCase, Encoding.char]

theorem Encoding.text_map_upperCase (p : Params) (x : Encoding) (text : List Byte) :
    x.text p (text.map upperCase) = x.text p text := by
  simp only [Encoding.text, List.foldl_map, Encoding.char_upperCase]

theorem encodeText_map_upperCase (p : Params) (m : Memory) (text : List Byte) :
    encodeText p m (text.map upperCase) = encodeText p m text := by
  simp only [encodeText, Encoding.body, Encoding.text_map_upperCase, List.length_map]

/-- Settles O27: SUBMIT depends on the text through Encode, and Encode on each character through its class. -/
theorem submitIsCaseInsensitive : Obligations.SubmitIsCaseInsensitive := by
  intro s r text
  change execSubmit r (text.map upperCase) s = execSubmit r text s
  rw [execSubmit_eq, execSubmit_eq, encodeText_map_upperCase]

end Sys2Proof.Machine
end

section
/-! The rules of 40_encoder.md: the bit reader and the Bit Writer, the Code Table's lookup, unit costs and gaps, and what a
SUBMIT leaves in NEXT. -/

namespace Sys2Proof.Machine

/-! ### The Bit Writer (40_encoder.md R110) -/

/-- The content bits a run of writes leaves: the run itself, ORed in where its byte was not cleared; zeros in the rest of a
byte whose bit 0 it writes; every other bit as before. -/
theorem contentBit_writeBits {m : Memory} (h : m.wf = true) (k : Nat) (v : Bool) (n j : Nat) :
    (writeBits m k v n).contentBit j =
      if k ≤ j ∧ j < k + n then
        if 8 * (j / 8) < k then m.contentBit j || v else v
      else if k ≤ 8 * (j / 8) ∧ 8 * (j / 8) < k + n then false
      else m.contentBit j := by
  induction n generalizing m k with
  | zero => rw [writeBits, if_neg (by omega), if_neg (by omega)]
  | succ n ih =>
    have hclear : byteAddr j = byteAddr k ∧ bitPos k = 0 ↔ 8 * (j / 8) = k := by
      rw [byteAddr_eq_iff, bitPos]
      omega
    have hfirst : bitPos k ≠ 0 ↔ 8 * (k / 8) < k := by
      rw [bitPos]
      omega
    rw [writeBits, ih (wf_writeBit h k v), contentBit_writeBit h, Nat.add_right_comm k 1 n, ← Nat.add_assoc k n 1]
    simp only [hclear, hfirst]
    rcases Nat.lt_trichotomy j k with hbefore | rfl | hafter
    · simp (disch := omega) only [if_neg]
    · simp (disch := omega) only [if_neg, if_pos]
      by_cases hpartial : 8 * (j / 8) < j <;> simp [hpartial]
    · by_cases hcleared : 8 * (j / 8) = k
      · by_cases hrun : j < k + n + 1
        · simp (disch := omega) [if_pos, if_neg]
        · simp (disch := omega) only [if_neg, if_pos]
      · have hlow : k + 1 ≤ 8 * (j / 8) ↔ k ≤ 8 * (j / 8) := by omega
        have hhigh : 8 * (j / 8) < k + 1 ↔ 8 * (j / 8) < k := by omega
        have hj : k + 1 ≤ j ↔ k ≤ j := by omega
        simp only [hlow, hhigh, hj, if_neg hcleared, if_neg (Nat.ne_of_gt hafter)]

/-- A run of writes changes no byte before its first bit's or after its last bit's. -/
theorem read_writeBits_other {m : Memory} (h : m.wf = true) {k n a : Nat} (v : Bool)
    (ha : a < byteAddr k ∨ byteAddr (k + n - 1) < a) : (writeBits m k v n).read a = m.read a := by
  unfold byteAddr at ha
  induction n generalizing m k with
  | zero => rfl
  | succ n ih =>
    rw [writeBits, ih (wf_writeBit h k v) (by omega), read_writeBit_other h v (by unfold byteAddr; omega)]

/-- Settles O18: AppendRun's two outcomes; the bits and the bytes that its writes leave. -/
theorem appendRunWritesTheRun : Obligations.AppendRunWritesTheRun := by
  intro p m i v n hwf _ _
  rcases appendRun_cases p m i v n with ⟨hover, he⟩ | ⟨hfit, he⟩
  · exact ⟨fun _ => he, fun hfit => by omega⟩
  · exact ⟨fun hover => by omega, fun _ => ⟨_, he, wf_writeBits hwf _ _ _, contentBit_writeBits hwf _ v n,
      fun _ ha => read_writeBits_other hwf v ha⟩⟩

/-! ### The bit reader (40_encoder.md R112) -/

/-- Settles O17: ReadBit reads a content byte, and SetLen writes none. -/
theorem bitReaderReadsContentBit : Obligations.BitReaderReadsContentBit := by
  intro p m i
  refine ⟨fun h => if_pos h, fun h => if_neg (Nat.not_lt.2 h), fun hwf v => ?_⟩
  rw [readBit, readBit, Memory.contentBit_setLen hwf]

/-! ### The Code Table (40_encoder.md R101) -/

/-- A legal CODE_TABLE has 36 strings, none of them empty (00_scope.md R8). -/
theorem Params.legal_codeTable {p : Params} (h : p.legal = true) :
    p.codeTable.length = 36 ∧ ∀ s ∈ p.codeTable, s ≠ [] := by
  simp only [Params.legal, Params.tableLegal, Bool.and_eq_true, beq_iff_eq, List.all_eq_true] at h
  exact ⟨h.2.1, fun s hs => by simpa using h.2.2 s hs⟩

/-- Each of the 36 entries of a legal CODE_TABLE is a string of at least one symbol. -/
theorem Params.codeTable_entry {p : Params} (h : p.legal = true) {k : Nat} (hk : k < 36) :
    p.codeTable[k]? = some (p.codeTable.getD k []) ∧ p.codeTable.getD k [] ≠ [] := by
  obtain ⟨hlen, hne⟩ := Params.legal_codeTable h
  have hk : k < p.codeTable.length := by omega
  rw [List.getD_eq_getElem _ _ hk]
  exact ⟨List.getElem?_eq_getElem hk, hne _ (List.getElem_mem hk)⟩

theorem lut_digit (p : Params) {k : Nat} (hk : k < 10) : p.lut k = p.codeTable.getD k [] := if_pos hk

theorem lut_letter (p : Params) {k : Nat} (h17 : 17 ≤ k) (h43 : k < 43) : p.lut k = p.codeTable.getD (k - 7) [] := by
  rw [Params.lut, if_neg (by omega), if_neg (by omega), if_pos h43]

/-- Settles O20: the LUT's three ranges; the two that are not empty are the entries 0..9 and 10..35 of CODE_TABLE. -/
theorem lutHoldsTheCodeTable : Obligations.LutHoldsTheCodeTable := by
  refine fun p h => ⟨fun k hk => ?_, fun k h10 h16 => lut_gap p h10 (by omega), fun k h17 h42 => ?_⟩
  · rw [lut_digit p hk]
    exact Params.codeTable_entry h (by omega)
  · rw [lut_letter p h17 (by omega)]
    exact Params.codeTable_entry h (by omega)

/-! ### Unit costs (40_encoder.md R103) -/

/-- A dot costs 2 units and a dash 4, the inter-element gap included. -/
theorem classCost_symbol (s : List Symbol) : classCost (.symbol s) = 2 + 2 * s.count .dot + 4 * s.count .dash := by
  induction s with
  | nil => rfl
  | cons y s ih =>
    have hcons : classCost (.symbol (y :: s)) = classCost (.symbol s) + (1 + onUnits y) := by
      simp only [classCost, List.map_cons, List.sum_cons]
      omega
    rw [hcons, ih]
    cases y <;> simp [onUnits] <;> omega

theorem charRuns_length (p : Params) (c : Byte) : (runUnits (charRuns p c)).length = charCost p c := by
  rw [charRuns_units, charUnits, classUnits_length, charCost]

theorem invalidChar_eq_false_iff {p : Params} {c : Byte} : invalidChar p c = false ↔ classOf p c ≠ .invalid := by
  simp [invalidChar]

/-- A character that fits advances PTR by its cost. -/
theorem Encoding.char_ptr {p : Params} {x : Encoding} {c : Byte} (hp : p.bitcap ≤ 2 ^ 32 - 1)
    (hf : x.regs.fail = none) (hc : classOf p c ≠ .invalid) (hfit : x.regs.ptr.toNat + charCost p c ≤ p.bitcap) :
    (x.char p c).regs.ptr.toNat = x.regs.ptr.toNat + charCost p c ∧ (x.char p c).regs.fail = none := by
  rw [← charRuns_length] at hfit ⊢
  rw [Encoding.char_valid (invalidChar_eq_false_iff.2 hc)]
  exact Encoding.runs_ptr _ hp hf hfit

/-- Settles O21: costs by the symbols of the string, and a character's runs are its pattern. -/
theorem unitCostPerClass : Obligations.UnitCostPerClass := by
  refine ⟨rfl, classCost_symbol, rfl, classUnits_length, charRuns_length, fun p x c hp hf hc hfit => ?_⟩
  obtain ⟨-, hbit, -⟩ := Params.legal_parts hp
  exact Encoding.char_ptr hbit hf hc hfit

/-! ### Canonical gaps (40_encoder.md R104) -/

/-- A symbol begins with its one-unit gap and its first on unit. -/
theorem symbolUnits_eq_cons (y : Symbol) : ∃ tail, symbolUnits y = false :: true :: tail := by
  cases y <;> exact ⟨_, rfl⟩

/-- A symbol ends with an on unit. -/
theorem symbolUnits_eq_concat (y : Symbol) : ∃ init, symbolUnits y = init ++ [true] := by
  cases y
  · exact ⟨[false], rfl⟩
  · exact ⟨[false, true, true], rfl⟩

theorem classUnits_symbol_append (s t : List Symbol) :
    classUnits (.symbol (s ++ t)) = classUnits (.symbol s) ++ t.flatMap symbolUnits := by
  simp [classUnits]

/-- A character of at least one symbol ends with an on unit: its last symbol has no trailing gap. -/
theorem classUnits_symbol_concat (s : List Symbol) (y : Symbol) :
    ∃ init, classUnits (.symbol (s ++ [y])) = init ++ [true] := by
  obtain ⟨init, hy⟩ := symbolUnits_eq_concat y
  refine ⟨classUnits (.symbol s) ++ init, ?_⟩
  rw [classUnits_symbol_append, List.flatMap_singleton, hy, List.append_assoc]

/-- A character of at least one symbol begins with 3 off units and an on unit. -/
theorem classUnits_symbol_cons (y : Symbol) (s : List Symbol) :
    ∃ body, classUnits (.symbol (y :: s)) = false :: false :: false :: true :: body := by
  obtain ⟨tail, hy⟩ := symbolUnits_eq_cons y
  exact ⟨tail ++ s.flatMap symbolUnits, by rw [classUnits, List.flatMap_cons, hy]; rfl⟩

theorem classUnits_symbol_getLast (y : Symbol) (s : List Symbol) :
    (classUnits (.symbol (y :: s))).getLast? = some true := by
  obtain ⟨init, hlast⟩ := classUnits_symbol_concat ((y :: s).dropLast) ((y :: s).getLast (by simp))
  rw [List.dropLast_append_getLast] at hlast
  rw [hlast, List.getLast?_concat]

/-- Between two symbols of a character there is one off unit, right after the first one's last on unit. -/
theorem classUnits_symbol_gap (s s' : List Symbol) (y y' : Symbol) :
    ∃ before after, classUnits (.symbol (s ++ y :: y' :: s')) = before ++ [true, false, true] ++ after ∧
      before.length = classCost (.symbol (s ++ [y])) - 1 := by
  obtain ⟨before, hbefore⟩ := classUnits_symbol_concat s y
  obtain ⟨tail, hy'⟩ := symbolUnits_eq_cons y'
  refine ⟨before, tail ++ s'.flatMap symbolUnits, ?_, ?_⟩
  · rw [List.append_cons s y, classUnits_symbol_append, hbefore, List.flatMap_cons, hy']
    simp
  · rw [← classUnits_length, hbefore, List.length_append]
    rfl

/-- Settles O22: a character's pattern, from its first unit, between its symbols, and to its last. -/
theorem canonicalGaps : Obligations.CanonicalGaps := by
  refine ⟨fun s s' y y' => ⟨classUnits_symbol_gap s s' y y', ?_⟩, fun s y => ?_⟩
  · obtain ⟨body, hbody⟩ := classUnits_symbol_cons y s
    exact ⟨body, hbody, classUnits_symbol_getLast y s⟩
  · obtain ⟨body, hbody⟩ := classUnits_symbol_cons y s
    exact ⟨body, by rw [hbody]; rfl⟩

/-! ### The result of a text (40_encoder.md R128) -/

theorem any_invalidChar_eq_false {p : Params} {text : List Byte} (h : ∀ c ∈ text, classOf p c ≠ .invalid) :
    text.any (invalidChar p) = false :=
  List.any_eq_false.2 fun c hc => by simpa [invalidChar] using h c hc

theorem expectedResult_of_valid {p : Params} {text : List Byte} (h : ∀ c ∈ text, classOf p c ≠ .invalid) :
    expectedResult p text = if textCost p text + 12 ≤ p.bitcap then none else some .encodingOverflow := by
  rw [expectedResult, any_invalidChar_eq_false h, if_neg Bool.false_ne_true]

/-- `validPrefix` stops right before the first INVALID character. -/
theorem validPrefix_of_first_invalid {p : Params} {before after : List Byte} {c : Byte}
    (hb : ∀ b ∈ before, classOf p b ≠ .invalid) (hc : classOf p c = .invalid) :
    validPrefix p (before ++ c :: after) = before := by
  induction before with
  | nil => exact validPrefix_cons_invalid (by simpa [invalidChar] using hc) after
  | cons b before ih =>
    obtain ⟨hvalid, hrest⟩ := List.forall_mem_cons.1 hb
    rw [List.cons_append, validPrefix_cons_valid (invalidChar_eq_false_iff.2 hvalid), ih hrest]

theorem expectedResult_of_first_invalid {p : Params} {before after : List Byte} {c : Byte}
    (hb : ∀ b ∈ before, classOf p b ≠ .invalid) (hc : classOf p c = .invalid) :
    expectedResult p (before ++ c :: after) =
      if textCost p before ≤ p.bitcap then some .invalidCharacter else some .encodingOverflow := by
  have hany : (before ++ c :: after).any (invalidChar p) = true := by simp [invalidChar, hc]
  rw [expectedResult, hany, if_pos rfl, validPrefix_of_first_invalid hb hc]

/-! ### What a SUBMIT leaves (40_encoder.md R129, 41_playback.md R142 to R144) -/

section Submit

variable {s t : State} {r : Bool} {text : List Byte}

/-- SUBMIT completes, with its effect on every field and Encode's result in NEXT. -/
theorem exec_submit_result (r : Bool) (text : List Byte) (hp : s.cfg.legal = true) (hwf : s.next.wf = true) :
    ∃ t, exec (.submit r text) s = .next t ∧ SubmitEffect s r text t ∧ EncodeResult s.cfg s.next t.next text := by
  obtain ⟨-, hbit, -⟩ := Params.legal_parts hp
  obtain ⟨t, ht, e⟩ := execSubmit_effect r text s
  exact ⟨t, ht, e, by rw [e.next]; exact encodeText_result text hbit hwf⟩

theorem EncodeResult.len_of_success {p : Params} {before after : Memory} (h : EncodeResult p before after text)
    (hok : expectedResult p text = none) : after.len.toNat = (messageUnits p text).length := by
  rw [h.len, if_pos hok, (writtenUnits_of_success hok).1]

theorem EncodeResult.len_of_failure {p : Params} {before after : Memory} (h : EncodeResult p before after text)
    (hfail : expectedResult p text ≠ none) : after.len = 0#32 :=
  BitVec.eq_of_toNat_eq (by rw [h.len, if_neg hfail]; rfl)

/-- A successful SUBMIT reports code 0 and no event (41_playback.md R144). -/
theorem SubmitEffect.report_of_success (e : SubmitEffect s r text t) (hp : s.cfg.legal = true)
    (hwf : s.next.wf = true) (hok : expectedResult s.cfg text = none) :
    t.lastDiag = 0#2 ∧ t.trace = s.trace := by
  obtain ⟨-, hbit, -⟩ := Params.legal_parts hp
  have hcode := encodeText_code text hbit hwf
  rw [e.lastDiag, e.trace, hcode, hok]
  exact ⟨rfl, rfl⟩

/-- A failed SUBMIT reports its error's code, with one event (41_playback.md R144). -/
theorem SubmitEffect.report_of_failure (e : SubmitEffect s r text t) (hp : s.cfg.legal = true)
    (hwf : s.next.wf = true) {err : Error} (hfail : expectedResult s.cfg text = some err) :
    t.lastDiag = err.code ∧ t.trace = s.trace ++ [.diag err] := by
  obtain ⟨-, hbit, -⟩ := Params.legal_parts hp
  have hcode := encodeText_code text hbit hwf
  rw [e.lastDiag, e.trace, hcode, hfail]
  exact ⟨rfl, rfl⟩

end Submit

/-- Settles O23: R128's result for the text, by its first INVALID character if it has one, and what SUBMIT reports. -/
theorem submitResult : Obligations.SubmitResult := by
  intro s r text hp hwf
  obtain ⟨t, ht, e, hres⟩ := exec_submit_result r text hp hwf
  have hfailed : ∀ err, expectedResult s.cfg text = some err →
      t.next.len = 0#32 ∧ t.lastDiag = err.code ∧ t.trace = s.trace ++ [.diag err] := fun err he =>
    ⟨hres.len_of_failure (by simp [he]), e.report_of_failure hp hwf he⟩
  refine ⟨t, ht, e.repeatNext, e.repeatFlag, fun hv hfit => ?_, fun hv hover => ?_,
    fun before after c htext hb hc => ?_⟩
  · have hok : expectedResult s.cfg text = none := by rw [expectedResult_of_valid hv, if_pos hfit]
    rw [hres.len_of_success hok, (writtenUnits_of_success hok).2]
    exact ⟨rfl, e.report_of_success hp hwf hok⟩
  · exact hfailed .encodingOverflow (by rw [expectedResult_of_valid hv, if_neg (by omega)])
  · have hcase := expectedResult_of_first_invalid (after := after) hb hc
    rw [← htext] at hcase
    by_cases hfit : textCost s.cfg before ≤ s.cfg.bitcap
    · obtain ⟨hlen, hreport⟩ := hfailed .invalidCharacter (by rw [hcase, if_pos hfit])
      exact ⟨hlen, fun _ => hreport, fun hover => by omega⟩
    · obtain ⟨hlen, hreport⟩ := hfailed .encodingOverflow (by rw [hcase, if_neg hfit])
      exact ⟨hlen, fun h => absurd h hfit, fun _ => hreport⟩

/-- Settles O24: on success the units written are the whole message's. -/
theorem submitWritesTheMessage : Obligations.SubmitWritesTheMessage := by
  intro s r text hp hwf hv hfit
  have hok : expectedResult s.cfg text = none := by rw [expectedResult_of_valid hv, if_pos hfit]
  obtain ⟨t, ht, -, hres⟩ := exec_submit_result r text hp hwf
  rw [← (writtenUnits_of_success hok).1]
  exact ⟨t, ht, by rw [hres.len, if_pos hok], hres.units, hres.padding, hres.beyond⟩

/-- Settles O25: Encode's result in NEXT, with the header of a failure. -/
theorem failedSubmitKeepsStaleContent : Obligations.FailedSubmitKeepsStaleContent := by
  intro s r text hp hwf hfail
  obtain ⟨t, ht, -, hres⟩ := exec_submit_result r text hp hwf
  exact ⟨t, ht, hres.len_of_failure hfail, hres.units, hres.padding, hres.beyond⟩

/-! ### The old content of NEXT (40_encoder.md R130) -/

/-- Two encodes of a text give the same length, whatever the buffers held. -/
theorem EncodeResult.len_unique {p : Params} {text : List Byte} {b b' a a' : Memory} (h : EncodeResult p b a text)
    (h' : EncodeResult p b' a' text) : a.len = a'.len :=
  BitVec.eq_of_toNat_eq (h.len.trans h'.len.symm)

/-- Two encodes of a text leave the same content below the length, whatever the buffers held. -/
theorem EncodeResult.contentBit_unique {p : Params} {text : List Byte} {b b' a a' : Memory}
    (h : EncodeResult p b a text) (h' : EncodeResult p b' a' text) {k : Nat} (hk : k < a.len.toNat) :
    a.contentBit k = a'.contentBit k := by
  have hk : k < (writtenUnits p text).length := by
    rw [h.len] at hk
    split_ifs at hk <;> omega
  rw [h.units k hk, h'.units k hk]

/-- Two encodes of a text give the same code, whatever the buffers held. -/
theorem encodeText_code_unique {p : Params} {m m' : Memory} (text : List Byte) (hp : p.legal = true)
    (h : m.wf = true) (h' : m'.wf = true) : (encodeText p m text).2 = (encodeText p m' text).2 := by
  obtain ⟨-, hbit, -⟩ := Params.legal_parts hp
  rw [encodeText_code text hbit h, encodeText_code text hbit h']

/-- Settles O28: an encode's length, code and content do not depend on the buffer's old bytes, and LIVE is not written. -/
theorem submitIgnoresOldNext : Obligations.SubmitIgnoresOldNext := by
  intro s r text m m' hp hwf hwf'
  obtain ⟨t, ht, e, hres⟩ := exec_submit_result (s := s.setNext m) r text (by simpa) (by simpa)
  obtain ⟨t', ht', e', hres'⟩ := exec_submit_result (s := s.setNext m') r text (by simpa) (by simpa)
  rw [State.setNext_cfg, State.setNext_next] at hres hres'
  have hlen := hres.len_unique hres'
  have hcode := encodeText_code_unique text hp hwf hwf'
  refine ⟨t, t', ht, ht', hlen, ?_, ?_, ?_, fun k hk => hres.contentBit_unique hres' hk⟩
  · simp only [e.lastDiag, e'.lastDiag, State.setNext_cfg, State.setNext_next, hcode]
  · simp only [e.trace, e'.trace, State.setNext_cfg, State.setNext_next, State.setNext_trace, hcode]
  · refine State.playState_congr ?_ hlen ?_
    · rw [e.live, e'.live, State.setNext_live, State.setNext_live]
    · rw [e.repeatFlag, e'.repeatFlag]

end Sys2Proof.Machine
end

section
/-! The rules of 41_playback.md: what each command does to the registers, the buffers' roles and the event trace, and
the transition table. -/

namespace Sys2Proof.Machine

/-! ### Canonical buffers, by role (20_memory.md R50) -/

theorem State.Inv.live_wf {s : State} (h : s.Inv) : s.live.wf = true := (Memory.legalFor_iff.1 h.live_fits.legal).1

theorem State.Inv.next_wf {s : State} (h : s.Inv) : s.next.wf = true := (Memory.legalFor_iff.1 h.next_fits.legal).1

/-! ### Playback states by the two lengths and REPEAT (41_playback.md R170) -/

theorem State.playState_pending_iff (s : State) :
    s.playState = .pending ↔ s.live.len = 0#32 ∧ s.next.len ≠ 0#32 := by
  unfold State.playState
  split_ifs <;> simp_all

theorem State.playState_playing_iff (s : State) :
    s.playState = .playing ↔ s.live.len ≠ 0#32 ∧ s.repeatFlag = false := by
  unfold State.playState
  split_ifs <;> simp_all

theorem State.playState_repeating_iff (s : State) :
    s.playState = .repeating ↔ s.live.len ≠ 0#32 ∧ s.repeatFlag = true := by
  unfold State.playState
  split_ifs <;> simp_all

/-- With LIVE empty REPEAT does not matter. -/
theorem State.playState_of_live_empty {s : State} (h : s.live.len = 0#32) :
    s.playState = if s.next.len = 0#32 then .idle else .pending := if_pos h

/-- With LIVE not empty NEXT does not matter. -/
theorem State.playState_of_live {s : State} (h : s.live.len ≠ 0#32) :
    s.playState = if s.repeatFlag then .repeating else .playing := if_neg h

/-! ### The events of one command (10_state.md R32, R33) -/

theorem newEvents_of_append {s t : State} {es : List Event} (h : t.trace = s.trace ++ es) : newEvents s t = es := by
  rw [newEvents, h, List.drop_left]

/-- One SIG event is one `sig_strobe` pulse and no `diag_valid` pulse. -/
theorem pulses_of_sig {s t : State} {x : Bool} (h : t.trace = s.trace ++ [.sig x]) :
    sigStrobes s t = [x] ∧ diagPulses s t = [] := by
  rw [sigStrobes, diagPulses, newEvents_of_append h]
  exact ⟨rfl, rfl⟩

/-- One DIAG event is one `diag_valid` pulse and no `sig_strobe` pulse. -/
theorem pulses_of_diag {s t : State} {e : Error} (h : t.trace = s.trace ++ [.diag e]) :
    diagPulses s t = [e.code] ∧ sigStrobes s t = [] := by
  rw [sigStrobes, diagPulses, newEvents_of_append h]
  exact ⟨rfl, rfl⟩

/-! ### NOP, STOP and SETDOT (41_playback.md R141, R156, R160) -/

/-- Settles O37: NOP's arm answers the state it is given. -/
theorem nopChangesNothing : Obligations.NopChangesNothing := ⟨rfl, fun _ => rfl⟩

/-- STOP ends a repetition and no more (41_playback.md R171). -/
theorem State.setRepeat_false_playState (s : State) :
    (s.setRepeat false).playState = if s.playState = .repeating then .playing else s.playState := by
  by_cases hlive : s.live.len = 0#32
  · have hsame : (s.setRepeat false).playState = s.playState := by
      rw [State.playState_of_live_empty hlive]
      exact State.playState_of_live_empty hlive
    rw [hsame, if_neg fun h => ((State.playState_repeating_iff s).1 h).1 hlive]
  · rw [(State.playState_playing_iff (s.setRepeat false)).2 ⟨hlive, rfl⟩, State.playState_of_live hlive]
    cases s.repeatFlag <;> rfl

/-- Settles O38: STOP is REPEAT <- 0, which matters to the playback state only while LIVE repeats. -/
theorem stopClearsRepeat : Obligations.StopClearsRepeat :=
  ⟨rfl, fun s => ⟨rfl, fun h => s.setRepeat_false_playState.trans (if_pos h),
    fun h => s.setRepeat_false_playState.trans (if_neg h)⟩⟩

/-- Settles O40: SETDOT's word carries D, and its arm tests D for 0. -/
theorem setdotWritesLegalValuesOnly : Obligations.SetdotWritesLegalValuesOnly := by
  refine ⟨fun w rest hop => ?_, fun s d => ⟨fun hd => ?_, fun hd => ?_⟩⟩
  · rw [decode_of_one_word (by rw [hop]; decide), commandOf_setdot [] hop, dotField]
  · exact congrArg Host.Outcome.next (if_pos hd)
  · exact congrArg Host.Outcome.next (if_neg (not_not.2 hd))

/-! ### Reserved words (41_playback.md R165) -/

/-- A reserved word is a command by itself, whatever follows it. -/
theorem decode_reserved_cons {w : Word} (h : 6 ≤ (opField w).toNat) (rest : List Word) :
    (∃ op, decode (w :: rest) = .ok (.reservedLow op, rest)) ∨
      ∃ op, decode (w :: rest) = .ok (.reservedHigh op, rest) := by
  rw [decode_of_one_word (by bv_omega)]
  by_cases h8 : 8 ≤ (opField w).toNat
  · exact .inr ⟨_, by rw [commandOf_reservedHigh [] h8]⟩
  · exact .inl ⟨_, by rw [commandOf_reservedLow [] (by bv_omega)]⟩

/-- Settles O41: both reserved arms are Diag(IllegalCommand), one DIAG event. -/
theorem reservedWordsReportIllegalCommand : Obligations.ReservedWordsReportIllegalCommand :=
  ⟨fun _ rest h => ⟨if_neg (by bv_omega), decode_reserved_cons h rest⟩,
    fun _ => ⟨fun _ => rfl, fun _ => rfl, pulses_of_diag (e := .illegalCommand) rfl⟩⟩

/-! ### INTERRUPT (41_playback.md R157, R158) -/

theorem exec_interrupt (s : State) :
    exec .interrupt s = .next ((s.setLive (Memory.setLen s.live 0#32)).setRepeat false) := rfl

/-- Settles O39: SetLen(LIVE, 0) and REPEAT <- 0, field by field. -/
theorem interruptEmptiesLive : Obligations.InterruptEmptiesLive := by
  refine ⟨rfl, fun s hwf => ⟨_, exec_interrupt s, ?_, fun a ha => ?_, ?_⟩⟩
  · simpa using Memory.len_setLen hwf 0#32
  · simpa using Memory.read_setLen_content hwf 0#32 ha
  · simp

/-! ### What one TICK does (41_playback.md R146 to R154) -/

/-- ELAPSED after the accumulation, as the word of its number (R148). -/
theorem State.accumulated_eq (s : State) (t : BitVec 28) : s.accumulated t = BitVec.ofNat 32 (tickElapsed s t) := by
  rw [← State.accumulated_toNat, BitVec.ofNat_toNat, BitVec.setWidth_eq]

/-- bit_index as the word of its number (R149). -/
theorem State.tickIndex_eq {s : State} (h : s.dot ≠ 0#16) (t : BitVec 28) :
    s.tickIndex t = BitVec.ofNat 32 (tickQuotient s t) := by
  rw [← State.tickIndex_toNat h, BitVec.ofNat_toNat, BitVec.setWidth_eq]

/-- The bit a boundary TICK reads from buffer `m`, at the index the policy asks for (R153). -/
def State.boundaryBit (s : State) (t : BitVec 28) (m : Memory) : Bool :=
  readBit s.cfg m (boundaryReadIndex s.cfg.swapRead (s.tickIndex t))

/-- The boundary's bit, its index as a number: the quotient under QUIRK, 0 under FIXED (R153). -/
theorem State.boundaryBit_eq {s : State} (h : s.dot ≠ 0#16) (t : BitVec 28) (m : Memory) :
    s.boundaryBit t m =
      readBit s.cfg m (BitVec.ofNat 32 (match s.cfg.swapRead with
        | .quirk => tickQuotient s t
        | .fixed => 0)) := by
  rw [State.boundaryBit, State.tickIndex_eq h]
  cases s.cfg.swapRead <;> rfl

theorem exec_tick_of_empty {s : State} (t : BitVec 28) (h : s.live.len = 0#32 ∧ s.next.len = 0#32) :
    exec (.tick t) s = .next s :=
  if_pos (State.bothEmpty_iff.2 h)

/-- Settles O29: `execTick`'s first branch. -/
theorem tickOnEmptyBuffersDoesNothing : Obligations.TickOnEmptyBuffersDoesNothing :=
  fun _ t hl hn => exec_tick_of_empty t ⟨hl, hn⟩

section Tick

variable {s : State} {t : BitVec 28}

/-- Before the boundary: ELAPSED accumulates, and the live bit is emitted (R148, R149, R154). -/
theorem exec_tick_before_boundary (hdot : s.dot ≠ 0#16) (hq : tickQuotient s t < s.live.len.toNat) :
    exec (.tick t) s =
      .next ((s.setElapsed (BitVec.ofNat 32 (tickElapsed s t))).emit
        (readBit s.cfg s.live (BitVec.ofNat 32 (tickQuotient s t)))) := by
  have hne : s.bothEmpty = false := by
    rw [← Bool.not_eq_true, State.bothEmpty_iff]
    rintro ⟨hl, -⟩
    rw [hl] at hq
    exact absurd hq (Nat.not_lt_zero _)
  have hb : s.atBoundary t = false := by
    rw [← Bool.not_eq_true, State.atBoundary_iff hdot]
    omega
  rw [← State.accumulated_eq, ← State.tickIndex_eq hdot]
  rcases execTick_cases t s with ⟨h, -⟩ | ⟨-, -, he⟩ | ⟨-, h, -⟩ | ⟨-, h, -⟩
  · simp [hne] at h
  · exact he
  · simp [hb] at h
  · simp [hb] at h

/-- A boundary with a buffer not empty: the boundary's register writes, then the read that the policy asks for, from the
buffer live by then (R150, R153, R154). -/
theorem exec_tick_at_boundary (hdot : s.dot ≠ 0#16) (hne : ¬ (s.live.len = 0#32 ∧ s.next.len = 0#32))
    (hq : s.live.len.toNat ≤ tickQuotient s t) :
    exec (.tick t) s = .next (s.boundary.emit (s.boundaryBit t s.boundary.live)) := by
  have hb : s.atBoundary t = true := (State.atBoundary_iff hdot t).2 hq
  rcases execTick_cases t s with ⟨h, -⟩ | ⟨-, h, -⟩ | ⟨-, -, hr, he⟩ | ⟨-, -, hr, he⟩
  · exact absurd (State.bothEmpty_iff.1 h) hne
  · simp [hb] at h
  · rw [State.boundary_of_repeat hr]
    exact he
  · rw [State.boundary_of_not_repeat hr]
    exact he.trans (by rw [State.emitBit, State.setElapsed_cfg, State.swap_cfg, State.boundaryBit])

/-- A replay: ELAPSED <- 0, and the roles stay (R151). -/
theorem exec_tick_replay (hdot : s.dot ≠ 0#16) (hne : ¬ (s.live.len = 0#32 ∧ s.next.len = 0#32))
    (hq : s.live.len.toNat ≤ tickQuotient s t) (hr : s.repeatFlag = true) :
    exec (.tick t) s = .next ((s.setElapsed 0#32).emit (s.boundaryBit t s.live)) := by
  rw [exec_tick_at_boundary hdot hne hq, State.boundary_of_repeat hr, State.setElapsed_live]

/-- A swap, then ELAPSED <- 0; the bit comes from the buffer that was NEXT (R152, R153). -/
theorem exec_tick_swap (hdot : s.dot ≠ 0#16) (hne : ¬ (s.live.len = 0#32 ∧ s.next.len = 0#32))
    (hq : s.live.len.toNat ≤ tickQuotient s t) (hr : s.repeatFlag = false) :
    exec (.tick t) s = .next ((s.swap.setElapsed 0#32).emit (s.boundaryBit t s.next)) := by
  rw [exec_tick_at_boundary hdot hne hq, State.boundary_of_not_repeat hr, State.setElapsed_live, State.swap_live]

end Tick

/-- Settles O30: off the boundary, with every field of the next state given. -/
theorem tickBeforeBoundary : Obligations.TickBeforeBoundary :=
  fun _ _ hdot hq => exec_tick_before_boundary hdot hq

/-- Settles O34: off the boundary no rule reads the policy. -/
theorem policiesAgreeOffBoundary : Obligations.PoliciesAgreeOffBoundary :=
  fun s _ pol hdot hq => ⟨_, exec_tick_before_boundary hdot hq,
    exec_tick_before_boundary (s := { s with cfg := { s.cfg with swapRead := pol } }) hdot hq⟩

/-- Settles O31: a boundary that replays, with the policy's index as a number. -/
theorem tickReplays : Obligations.TickReplays := by
  intro s t hdot hne hq hr
  have htick := exec_tick_replay hdot hne hq hr
  rw [State.boundaryBit_eq hdot] at htick
  exact htick

/-! ### The swap (41_playback.md R152) -/

/-- After a swap the buffer that was LIVE is NEXT, and empty. -/
theorem State.swap_next_len {s : State} (hwf : s.live.wf = true) : s.swap.next.len = 0#32 := by
  rw [State.swap_next, Memory.len_setLen hwf]

/-- The state after a swap: by REPEAT_NEXT and the buffer swapped in (R171). -/
theorem State.swap_playState {s : State} (hwf : s.live.wf = true) : s.swap.playState = swapTarget s := by
  simp only [State.playState, State.swap_live, State.swap_next_len hwf, State.swap_repeatFlag, if_true, swapTarget]

/-- A tick that swaps appends its SIG event only. -/
theorem State.swap_setElapsed_emit_trace (s : State) (v : Word) (x : Bool) :
    ((s.swap.setElapsed v).emit x).trace = s.trace ++ [.sig x] := by
  simp

/-- The playback state reads neither ELAPSED nor SIG nor the trace. -/
theorem State.setElapsed_emit_playState (s : State) (v : Word) (x : Bool) :
    ((s.setElapsed v).emit x).playState = s.playState := rfl

/-- Settles O32: the swap's field laws, and the policy's index as a number. -/
theorem tickSwaps : Obligations.TickSwaps := by
  intro s t hdot hwf hne hq hr
  have htick := exec_tick_swap hdot hne hq hr
  rw [State.boundaryBit_eq hdot] at htick
  refine ⟨_, htick, s.swap_liveSel, s.swap_repeatFlag, s.swap_repeatNext, rfl, s.swap_live, State.swap_next_len hwf,
    fun a ha => ?_, rfl, s.swap_setElapsed_emit_trace _ _, s.swap_dot, s.swap_lastDiag,
    s.swap_cfg, s.swap_enc, s.swap_port, s.swap_rst, fun hn => ?_⟩
  · simpa using Memory.read_setLen_content hwf 0#32 ha
  · rw [State.setElapsed_emit_playState, State.swap_playState hwf, swapTarget, if_pos hn]

/-! ### Every TICK that is not IDLE's emits (41_playback.md R154, R155) -/

/-- Whatever DOT is, a TICK with a buffer not empty appends one event, SIG of the new SIG. -/
theorem exec_tick_emits {s : State} (t : BitVec 28) (hne : ¬ (s.live.len = 0#32 ∧ s.next.len = 0#32)) :
    ∃ u, exec (.tick t) s = .next u ∧ u.trace = s.trace ++ [.sig u.sig] := by
  rcases execTick_cases t s with ⟨h, -⟩ | ⟨-, -, he⟩ | ⟨-, -, -, he⟩ | ⟨-, -, -, he⟩
  · exact absurd (State.bothEmpty_iff.1 h) hne
  · exact ⟨_, he, rfl⟩
  · exact ⟨_, he, rfl⟩
  · exact ⟨_, he, s.swap_setElapsed_emit_trace _ _⟩

/-- Settles O33: the one SIG event of a TICK is its one pulse. -/
theorem tickEmitsExactlyOnce : Obligations.TickEmitsExactlyOnce := by
  intro s t hne
  obtain ⟨u, hu, htrace⟩ := exec_tick_emits t hne
  exact ⟨u, hu, htrace, pulses_of_sig htrace⟩

theorem readBit_of_le {p : Params} {m : Memory} {i : Word} (h : p.bitcap ≤ i.toNat) : readBit p m i = false :=
  if_neg (Nat.not_lt.2 h)

/-- Settles O35: Len(LIVE) is at most BITCAP, so such a quotient is a boundary, and QUIRK reads at the quotient. -/
theorem readPastCapacityEmitsZero : Obligations.ReadPastCapacityEmitsZero := by
  intro s t hs hidle hquirk hpast
  have hne := mt (State.playState_idle_iff s).2 hidle
  have hq : s.live.len.toNat ≤ tickQuotient s t := hs.live_fits.len.1.trans hpast
  refine ⟨_, exec_tick_at_boundary hs.dot hne hq, readBit_of_le ?_⟩
  rw [hquirk, boundaryReadIndex, State.tickIndex_toNat hs.dot]
  exact hpast

/-- In PENDING Len(LIVE) is 0 and REPEAT is 0, so every TICK swaps (R155). -/
theorem exec_tick_pending {s : State} (t : BitVec 28) (hs : s.Inv) (hpending : s.playState = .pending) :
    exec (.tick t) s = .next ((s.swap.setElapsed 0#32).emit (s.boundaryBit t s.next)) := by
  obtain ⟨hl, hn⟩ := (State.playState_pending_iff s).1 hpending
  exact exec_tick_swap hs.dot (fun h => hn h.2) (by rw [hl]; exact Nat.zero_le _) (hs.pending hl hn)

/-- Settles O36: PENDING's tick is a swap. -/
theorem tickInPendingSwaps : Obligations.TickInPendingSwaps :=
  fun s t hs hpending => ⟨_, exec_tick_pending t hs hpending, s.swap_liveSel, s.swap_live, rfl,
    s.swap_setElapsed_emit_trace _ _⟩

/-! ### SUBMIT (41_playback.md R142 to R145) -/

/-- Settles O26: SUBMIT's effect on each field, and Encode's frame in NEXT. -/
theorem submitFrame : Obligations.SubmitFrame := by
  intro s r text hp hwf
  obtain ⟨t, ht, e, hres⟩ := exec_submit_result r text hp hwf
  exact ⟨t, ht, e.live, e.liveSel, e.elapsed, e.dot, e.sig, e.cfg, e.port, e.rst, e.enc, e.repeatNext, e.repeatFlag,
    hres.beyond⟩

/-- From IDLE and PENDING, SUBMIT's result decides (R171). -/
theorem submitTarget_of_live_empty {s : State} (h : s.live.len = 0#32) (ok : Bool) :
    submitTarget s.playState ok = if ok then .pending else .idle := by
  rw [State.playState_of_live_empty h]
  by_cases hn : s.next.len = 0#32
  · rw [if_pos hn]
    rfl
  · rw [if_neg hn]
    rfl

/-- From PLAYING and REPEATING, SUBMIT leads to PLAYING whatever its result (R171). -/
theorem submitTarget_of_live {s : State} (h : s.live.len ≠ 0#32) (ok : Bool) :
    submitTarget s.playState ok = .playing := by
  rw [State.playState_of_live h]
  cases s.repeatFlag <;> rfl

/-- The state after SUBMIT (R171): Len(NEXT) is 0 exactly when the encode failed, and REPEAT is 0. -/
theorem SubmitEffect.playState {s t : State} {r : Bool} {text : List Byte} (e : SubmitEffect s r text t)
    (hres : EncodeResult s.cfg s.next t.next text) :
    t.playState = submitTarget s.playState (expectedResult s.cfg text == none) := by
  by_cases hlive : s.live.len = 0#32
  · rw [submitTarget_of_live_empty hlive, State.playState_of_live_empty (by rw [e.live, hlive])]
    by_cases hok : expectedResult s.cfg text = none
    · have hlen := hres.len_of_success hok
      rw [(writtenUnits_of_success hok).2] at hlen
      rw [if_neg (by bv_omega), hok]
      rfl
    · rw [if_pos (hres.len_of_failure hok), if_neg (by simpa using hok)]
  · rw [submitTarget_of_live hlive]
    exact (State.playState_playing_iff t).2 ⟨by rwa [e.live], e.repeatFlag⟩

/-- Settles O47: the failed SUBMIT leaves REPEAT = 0, REPEAT_NEXT = R and an empty NEXT, which the boundary swaps in. -/
theorem failedSubmitEndsRepetition : Obligations.FailedSubmitEndsRepetition := by
  intro s r text d hs hrepeating hfail
  obtain ⟨hl, -⟩ := (State.playState_repeating_iff s).1 hrepeating
  obtain ⟨t, ht, e, hres⟩ := exec_submit_result r text hs.params hs.next_wf
  have hinv := exec_keeps_inv hs ht
  have htl : t.live.len ≠ 0#32 := by rwa [e.live]
  refine ⟨t, ht, (State.playState_playing_iff t).2 ⟨htl, e.repeatFlag⟩, e.live, e.elapsed, fun hq => ?_⟩
  refine ⟨_, exec_tick_swap hinv.dot (fun h => htl h.1) hq e.repeatFlag, ?_, t.swap_repeatFlag.trans e.repeatNext⟩
  rw [State.setElapsed_emit_playState, State.swap_playState hinv.live_wf, swapTarget,
    if_pos (hres.len_of_failure hfail)]

/-! ### The transition table (41_playback.md R171) -/

/-- SUBMIT's row. -/
theorem submit_row {s : State} (hs : s.Inv) (r : Bool) (text : List Byte) :
    ∃ t, exec (.submit r text) s = .next t ∧ t.playState = (transitionRow s (.submit r text)).1 ∧
      t.trace = emittedTrace s t (transitionRow s (.submit r text)).2 := by
  obtain ⟨t, ht, e, hres⟩ := exec_submit_result r text hs.params hs.next_wf
  refine ⟨t, ht, e.playState hres, ?_⟩
  cases hcode : expectedResult s.cfg text with
  | none => simpa [transitionRow, emittedTrace, hcode] using (e.report_of_success hs.params hs.next_wf hcode).2
  | some err => simpa [transitionRow, emittedTrace, hcode] using (e.report_of_failure hs.params hs.next_wf hcode).2

/-- TICK's row: IDLE does nothing, PENDING swaps, PLAYING swaps at its boundary, REPEATING replays at its boundary. -/
theorem tick_row {s : State} (hs : s.Inv) (t : BitVec 28) :
    ∃ u, exec (.tick t) s = .next u ∧ u.playState = (transitionRow s (.tick t)).1 ∧
      u.trace = emittedTrace s u (transitionRow s (.tick t)).2 := by
  simp only [transitionRow, tickTarget]
  cases hplay : s.playState with
  | idle => exact ⟨s, exec_tick_of_empty t ((State.playState_idle_iff s).1 hplay), hplay, rfl⟩
  | pending =>
    obtain ⟨-, hn⟩ := (State.playState_pending_iff s).1 hplay
    refine ⟨_, exec_tick_pending t hs hplay, ?_, s.swap_setElapsed_emit_trace _ _⟩
    rw [State.setElapsed_emit_playState, State.swap_playState hs.live_wf, swapTarget, if_neg hn]
  | playing =>
    obtain ⟨hl, hr⟩ := (State.playState_playing_iff s).1 hplay
    by_cases hq : tickQuotient s t < s.live.len.toNat
    · simp only [if_pos hq]
      exact ⟨_, exec_tick_before_boundary hs.dot hq, hplay, rfl⟩
    · simp only [if_neg hq]
      exact ⟨_, exec_tick_swap hs.dot (fun h => hl h.1) (by omega) hr, State.swap_playState hs.live_wf,
        s.swap_setElapsed_emit_trace _ _⟩
  | repeating =>
    obtain ⟨hl, hr⟩ := (State.playState_repeating_iff s).1 hplay
    by_cases hq : tickQuotient s t < s.live.len.toNat
    · exact ⟨_, exec_tick_before_boundary hs.dot hq, hplay, rfl⟩
    · exact ⟨_, exec_tick_replay hs.dot (fun h => hl h.1) (by omega) hr, hplay, rfl⟩

/-- INTERRUPT's row: LIVE is empty afterwards, so NEXT decides. -/
theorem interrupt_row {s : State} (hs : s.Inv) :
    ∃ t, exec .interrupt s = .next t ∧ t.playState = (transitionRow s .interrupt).1 ∧
      t.trace = emittedTrace s t (transitionRow s .interrupt).2 := by
  refine ⟨_, exec_interrupt s, ?_, by simp [transitionRow, emittedTrace]⟩
  rw [State.playState_of_live_empty (by simpa using Memory.len_setLen hs.live_wf 0#32)]
  simp only [State.setRepeat_next, State.setLive_next, transitionRow, interruptTarget]
  cases hplay : s.playState with
  | idle => exact if_pos ((State.playState_idle_iff s).1 hplay).2
  | pending => exact if_neg ((State.playState_pending_iff s).1 hplay).2
  | playing => rfl
  | repeating => rfl

/-- Settles O44: one row per command. -/
theorem playbackTransitionTable : Obligations.PlaybackTransitionTable := by
  intro s i hs
  cases i with
  | nop => exact ⟨s, rfl, rfl, rfl⟩
  | submit r text => exact submit_row hs r text
  | tick t => exact tick_row hs t
  | stop => exact ⟨s.setRepeat false, rfl, s.setRepeat_false_playState, rfl⟩
  | interrupt => exact interrupt_row hs
  | setdot d =>
    obtain ⟨t, ht⟩ := exec_next (.setdot d) s
    rcases execSetdot_cases ht with ⟨-, rfl⟩ | ⟨-, rfl⟩ <;> exact ⟨_, ht, rfl, rfl⟩
  | reservedLow op => exact ⟨s.reservedWord, rfl, rfl, rfl⟩
  | reservedHigh op => exact ⟨s.reservedWord, rfl, rfl, rfl⟩

end Sys2Proof.Machine
end

section
/-! The rules of 60_exceptions.md: no command traps, and every step completes. -/

namespace Sys2Proof.Machine

/-- Every step completes: a reset and waiting name their next state (log 5, log 4), and a command has one by `exec_next`. -/
theorem step_next (s : State) : ∃ t, step s = .next t := by
  rcases step_cases s with ⟨init, -, hreset⟩ | ⟨-, -, hwait⟩ | ⟨-, i, rest, -, hexec⟩
  · exact ⟨_, hreset⟩
  · exact ⟨s, hwait⟩
  · exact hexec ▸ exec_next i (s.setPort rest)

/-- Settles O10: every command completes, and so does every step, whether reset, waiting or command. -/
theorem nothingStopsTheBlock : Obligations.NothingStopsTheBlock := ⟨exec_next, step_next⟩

end Sys2Proof.Machine
end

section
/-! The rules of 70_reset_and_hazards.md: the `rst` input, and the silence after an INTERRUPT with nothing queued. -/

namespace Sys2Proof.Machine

/-! ### The reset input (70_reset_and_hazards.md R200 to R202) -/

theorem step_of_rst {s : State} {init : BufInit} (h : s.rst = some init) : step s = .next (s.afterReset init) := by
  rw [step, h]

/-- A reset while the block waits for beats drops the words of the abandoned SUBMIT (R202; log 5). -/
theorem State.afterReset_port_of_awaitingBeats {s : State} (h : s.awaitingBeats = true) (init : BufInit) :
    (s.afterReset init).port = [] :=
  if_pos h

/-- Words that were not taken stay presented (R200; log 5). -/
theorem State.afterReset_port_of_not_awaitingBeats {s : State} (h : s.awaitingBeats = false) (init : BufInit) :
    (s.afterReset init).port = s.port :=
  if_neg (Bool.eq_false_iff.1 h)

theorem State.awaitingBeats_of_decode_ok {s : State} {x : Instr × List Word} (h : decode s.port = .ok x) :
    s.awaitingBeats = false := by
  rw [State.awaitingBeats, h]

theorem State.awaitingBeats_of_beatsMissing {s : State} {n : Nat} (h : decode s.port = .error (.beatsMissing n)) :
    s.awaitingBeats = true := by
  rw [State.awaitingBeats, h]

/-- Settles O12: `afterReset` is the reset state but for its port, which is emptied exactly when beats are awaited. -/
theorem resetInputResets : Obligations.ResetInputResets := by
  intro s init hrst
  refine ⟨s.afterReset init, step_of_rst hrst, rfl, rfl, rfl, rfl, fun i rest hwhole => ?_, fun n hmissing => ?_⟩
  · exact State.afterReset_port_of_not_awaitingBeats (State.awaitingBeats_of_decode_ok hwhole) init
  · exact State.afterReset_port_of_awaitingBeats (State.awaitingBeats_of_beatsMissing hmissing) init

/-! ### INTERRUPT, then TICK (70_reset_and_hazards.md R208) -/

/-- Settles O48: INTERRUPT empties LIVE (R157) and keeps NEXT (R158), so the TICK meets two empty buffers (R147). -/
theorem interruptThenTickIsSilent : Obligations.InterruptThenTickIsSilent := by
  intro s d hwf hnext
  obtain ⟨t, hexec, hlive, -, -, hkeepsNext, -, -, -, -, hsig, -, htrace, -⟩ := interruptEmptiesLive.2 s hwf
  exact ⟨t, hexec, exec_tick_of_empty d ⟨hlive, hkeepsNext ▸ hnext⟩, hsig, htrace⟩

end Sys2Proof.Machine
end
